-- ==== Sys2Proof/Word.lean ====
section
/-! DEFINITION. The bit-vector types of the CHIP-8 core (spec/00_scope.md R9, R10: every value is
unsigned) and the assembly of an instruction word from its fields (R9: in a concatenation the first
part is the more significant one). -/

namespace Sys2Proof

/-- A u8: a memory byte, a `V` register, a timer, the immediate `kk`. -/
abbrev Byte := BitVec 8

/-- A u16: an instruction word, `I`, `pc`, a return address. -/
abbrev Word := BitVec 16

/-- The 12-bit address field `nnn` (30_encoding R81). -/
abbrev Addr12 := BitVec 12

/-- A 4-bit field (30_encoding R81): the row count `n`, or bits the decoder does not examine. -/
abbrev Nibble := BitVec 4

/-- A register selector, the field `x` or `y`, used directly as the index into `V[0..15]`
(30_encoding R83: all 16 values are legal). -/
abbrev RegIdx := BitVec 4

/-- An instruction word from four nibbles, the first being bits 15..12. -/
def wordOfNibbles (a b c d : Nibble) : Word := a ++ b ++ c ++ d

/-- An instruction word from two nibbles and a low byte. -/
def wordOfByte (a b : Nibble) (k : Byte) : Word := a ++ b ++ k

/-- An instruction word from a nibble and a 12-bit field. -/
def wordOfAddr (a : Nibble) (nnn : Addr12) : Word := a ++ nnn

end Sys2Proof
end

