-- ==== Sys2Proof/Syntax.lean ====
section
/-! DEFINITION. The 34 instructions (spec/30_encoding.md R95), one constructor per row of
spec/opcode_table.json, in the table's order. A constructor holds every field the table gives the row,
the bits the decoder does not examine among them (`ign`): the fault record of a faulting alias word
holds the word as it was fetched (60_exceptions R204), so those bits are not lost. Log entry 9. -/

namespace Sys2Proof

inductive Instr where
  /-- `CLS`, 00E0; bits 11..8 are not examined. R175. -/
  | cls (ign : Nibble)
  /-- `RET`, 00EE; bits 11..8 are not examined. R128. -/
  | ret (ign : Nibble)
  /-- `JP nnn`, 1nnn. R126. -/
  | jp (nnn : Addr12)
  /-- `CALL nnn`, 2nnn. R127. -/
  | call (nnn : Addr12)
  /-- `SE Vx, kk`, 3xkk. R136. -/
  | seImm (x : RegIdx) (kk : Byte)
  /-- `SNE Vx, kk`, 4xkk. R137. -/
  | sneImm (x : RegIdx) (kk : Byte)
  /-- `SE Vx, Vy`, 5xy0; bits 3..0 are not examined. R138. -/
  | seReg (x y : RegIdx) (ign : Nibble)
  /-- `LD Vx, kk`, 6xkk. R145. -/
  | ldImm (x : RegIdx) (kk : Byte)
  /-- `ADD Vx, kk`, 7xkk. R146. -/
  | addImm (x : RegIdx) (kk : Byte)
  /-- `LD Vx, Vy`, 8xy0. R151. -/
  | ldReg (x y : RegIdx)
  /-- `OR Vx, Vy`, 8xy1. R152. -/
  | orReg (x y : RegIdx)
  /-- `AND Vx, Vy`, 8xy2. R153. -/
  | andReg (x y : RegIdx)
  /-- `XOR Vx, Vy`, 8xy3. R154. -/
  | xorReg (x y : RegIdx)
  /-- `ADD Vx, Vy`, 8xy4. R155. -/
  | addReg (x y : RegIdx)
  /-- `SUB Vx, Vy`, 8xy5. R156. -/
  | subReg (x y : RegIdx)
  /-- `SHR Vx`, 8x06; bits 7..4 are ignored (R90). R157. -/
  | shr (x : RegIdx) (ign : Nibble)
  /-- `SUBN Vx, Vy`, 8xy7. R158. -/
  | subnReg (x y : RegIdx)
  /-- `SHL Vx`, 8x0E; bits 7..4 are ignored (R90). R159. -/
  | shl (x : RegIdx) (ign : Nibble)
  /-- `SNE Vx, Vy`, 9xy0; bits 3..0 are not examined. R139. -/
  | sneReg (x y : RegIdx) (ign : Nibble)
  /-- `LD I, nnn`, Annn. R165. -/
  | ldI (nnn : Addr12)
  /-- `JP V0, nnn`, Bnnn. R129. -/
  | jpV0 (nnn : Addr12)
  /-- `RND Vx, kk`, Cxkk. R171. -/
  | rnd (x : RegIdx) (kk : Byte)
  /-- `DRW Vx, Vy, n`, Dxyn. R174. -/
  | drw (x y : RegIdx) (n : Nibble)
  /-- `SKP Vx`, Ex9E; bits 7..4 are not examined. R140. -/
  | skp (x : RegIdx) (ign : Nibble)
  /-- `SKNP Vx`, ExA1; bits 7..4 are not examined. R141. -/
  | sknp (x : RegIdx) (ign : Nibble)
  /-- `LD Vx, DT`, Fx07. R187. -/
  | ldVxDT (x : RegIdx)
  /-- `LD Vx, K`, Fx0A. R192. -/
  | ldVxK (x : RegIdx)
  /-- `LD DT, Vx`, Fx15. R188. -/
  | ldDTVx (x : RegIdx)
  /-- `LD ST, Vx`, Fx18. R189. -/
  | ldSTVx (x : RegIdx)
  /-- `ADD I, Vx`, Fx1E. R166. -/
  | addI (x : RegIdx)
  /-- `LD F, Vx`, Fx29. R167. -/
  | ldF (x : RegIdx)
  /-- `LD B, Vx`, Fx33. R181. -/
  | ldB (x : RegIdx)
  /-- `LD [I], Vx`, Fx55. R182. -/
  | ldMemVx (x : RegIdx)
  /-- `LD Vx, [I]`, Fx65. R183. -/
  | ldVxMem (x : RegIdx)
deriving DecidableEq, Repr

/-- Why a word selects no instruction: the four classes of 30_encoding R93, and a byte string too
short to hold an instruction word (R80: every instruction is two bytes). -/
inductive DecodeReject where
  /-- R93 (a): family 0x0 with a low byte other than E0 and EE. -/
  | undefined0
  /-- R93 (b): family 0x8 with a low nibble 8 to D or F. -/
  | undefined8
  /-- R93 (c): family 0xE with a low nibble other than 1 and E. -/
  | undefinedE
  /-- R93 (d): family 0xF with a low byte outside the nine of R88. -/
  | undefinedF
  /-- Fewer than two bytes were given. The machine never raises it: a fetch reads both bytes or faults. -/
  | truncated
deriving DecidableEq, Repr

end Sys2Proof
end

