-- ==== Sys2Proof/Decode.lean ====
section
/-! DEFINITION. Instruction decode (spec/30_encoding.md R80 to R94): the fields, the two-level
dispatch, the words that select no instruction; the opcode map of R95 as one named table; and, after
them, the encoder written from the same encodings. -/

namespace Sys2Proof

/-! ## The fields of a word (R81) -/

/-- `op`, bits 15..12. -/
def Word.op (w : Word) : Nibble := w.extractLsb' 12 4
/-- `x`, bits 11..8. -/
def Word.x (w : Word) : RegIdx := w.extractLsb' 8 4
/-- `y`, bits 7..4. -/
def Word.y (w : Word) : RegIdx := w.extractLsb' 4 4
/-- `n`, bits 3..0. -/
def Word.n (w : Word) : Nibble := w.extractLsb' 0 4
/-- `kk`, bits 7..0. -/
def Word.kk (w : Word) : Byte := w.extractLsb' 0 8
/-- `nnn`, bits 11..0. -/
def Word.nnn (w : Word) : Addr12 := w.extractLsb' 0 12

/-! ## The two-level dispatch (R84 to R89) -/

/-- Family 0x0 dispatches on `kk` (R85). -/
def decodeFamily0 (w : Word) : Except DecodeReject Instr :=
  if Word.kk w = 0xE0#8 then .ok (.cls (Word.x w))
  else if Word.kk w = 0xEE#8 then .ok (.ret (Word.x w))
  else .error .undefined0

/-- Family 0x8 dispatches on `n` (R86). -/
def decodeFamily8 (w : Word) : Except DecodeReject Instr :=
  match (Word.n w).toNat with
  | 0x0 => .ok (.ldReg (Word.x w) (Word.y w))
  | 0x1 => .ok (.orReg (Word.x w) (Word.y w))
  | 0x2 => .ok (.andReg (Word.x w) (Word.y w))
  | 0x3 => .ok (.xorReg (Word.x w) (Word.y w))
  | 0x4 => .ok (.addReg (Word.x w) (Word.y w))
  | 0x5 => .ok (.subReg (Word.x w) (Word.y w))
  | 0x6 => .ok (.shr (Word.x w) (Word.y w))
  | 0x7 => .ok (.subnReg (Word.x w) (Word.y w))
  | 0xE => .ok (.shl (Word.x w) (Word.y w))
  | _ => .error .undefined8

/-- Family 0xE dispatches on `n`; bits 7..4 are not examined (R87). -/
def decodeFamilyE (w : Word) : Except DecodeReject Instr :=
  if Word.n w = 0xE#4 then .ok (.skp (Word.x w) (Word.y w))
  else if Word.n w = 0x1#4 then .ok (.sknp (Word.x w) (Word.y w))
  else .error .undefinedE

/-- Family 0xF dispatches on `kk` (R88). -/
def decodeFamilyF (w : Word) : Except DecodeReject Instr :=
  match (Word.kk w).toNat with
  | 0x07 => .ok (.ldVxDT (Word.x w))
  | 0x0A => .ok (.ldVxK (Word.x w))
  | 0x15 => .ok (.ldDTVx (Word.x w))
  | 0x18 => .ok (.ldSTVx (Word.x w))
  | 0x1E => .ok (.addI (Word.x w))
  | 0x29 => .ok (.ldF (Word.x w))
  | 0x33 => .ok (.ldB (Word.x w))
  | 0x55 => .ok (.ldMemVx (Word.x w))
  | 0x65 => .ok (.ldVxMem (Word.x w))
  | _ => .error .undefinedF

/-- Decode of one instruction word: the primary dispatch on `op` (R84). Total on all 65536 words (R91). -/
def decodeWord (w : Word) : Except DecodeReject Instr :=
  match (Word.op w).toNat with
  | 0x0 => decodeFamily0 w
  | 0x1 => .ok (.jp (Word.nnn w))
  | 0x2 => .ok (.call (Word.nnn w))
  | 0x3 => .ok (.seImm (Word.x w) (Word.kk w))
  | 0x4 => .ok (.sneImm (Word.x w) (Word.kk w))
  | 0x5 => .ok (.seReg (Word.x w) (Word.y w) (Word.n w))
  | 0x6 => .ok (.ldImm (Word.x w) (Word.kk w))
  | 0x7 => .ok (.addImm (Word.x w) (Word.kk w))
  | 0x8 => decodeFamily8 w
  | 0x9 => .ok (.sneReg (Word.x w) (Word.y w) (Word.n w))
  | 0xA => .ok (.ldI (Word.nnn w))
  | 0xB => .ok (.jpV0 (Word.nnn w))
  | 0xC => .ok (.rnd (Word.x w) (Word.kk w))
  | 0xD => .ok (.drw (Word.x w) (Word.y w) (Word.n w))
  | 0xE => decodeFamilyE w
  | _ => decodeFamilyF w

/-- The instruction word from the byte at the lower address and the byte after it: big-endian
(20_memory R52). -/
def wordOfBytes (hi lo : Byte) : Word := hi ++ lo

/-- Decode of a byte string: the first two bytes are the instruction, the rest is returned
(30_encoding R80, R97). -/
def decode : List Byte → Except DecodeReject (Instr × List Byte)
  | hi :: lo :: rest => (decodeWord (wordOfBytes hi lo)).map fun i => (i, rest)
  | _ => .error .truncated

/-! ## The opcode map (R95) -/

/-- One row of the opcode map: a word `ir` selects the row when `ir AND mask = pattern`. -/
structure OpcodeRow where
  mask : Word
  pattern : Word
deriving DecidableEq, Repr

/-- The row of R95 that an instruction belongs to. -/
def Instr.row : Instr → OpcodeRow
  | .cls _ => ⟨0xF0FF, 0x00E0⟩
  | .ret _ => ⟨0xF0FF, 0x00EE⟩
  | .jp _ => ⟨0xF000, 0x1000⟩
  | .call _ => ⟨0xF000, 0x2000⟩
  | .seImm _ _ => ⟨0xF000, 0x3000⟩
  | .sneImm _ _ => ⟨0xF000, 0x4000⟩
  | .seReg _ _ _ => ⟨0xF000, 0x5000⟩
  | .ldImm _ _ => ⟨0xF000, 0x6000⟩
  | .addImm _ _ => ⟨0xF000, 0x7000⟩
  | .ldReg _ _ => ⟨0xF00F, 0x8000⟩
  | .orReg _ _ => ⟨0xF00F, 0x8001⟩
  | .andReg _ _ => ⟨0xF00F, 0x8002⟩
  | .xorReg _ _ => ⟨0xF00F, 0x8003⟩
  | .addReg _ _ => ⟨0xF00F, 0x8004⟩
  | .subReg _ _ => ⟨0xF00F, 0x8005⟩
  | .shr _ _ => ⟨0xF00F, 0x8006⟩
  | .subnReg _ _ => ⟨0xF00F, 0x8007⟩
  | .shl _ _ => ⟨0xF00F, 0x800E⟩
  | .sneReg _ _ _ => ⟨0xF000, 0x9000⟩
  | .ldI _ => ⟨0xF000, 0xA000⟩
  | .jpV0 _ => ⟨0xF000, 0xB000⟩
  | .rnd _ _ => ⟨0xF000, 0xC000⟩
  | .drw _ _ _ => ⟨0xF000, 0xD000⟩
  | .skp _ _ => ⟨0xF00F, 0xE00E⟩
  | .sknp _ _ => ⟨0xF00F, 0xE001⟩
  | .ldVxDT _ => ⟨0xF0FF, 0xF007⟩
  | .ldVxK _ => ⟨0xF0FF, 0xF00A⟩
  | .ldDTVx _ => ⟨0xF0FF, 0xF015⟩
  | .ldSTVx _ => ⟨0xF0FF, 0xF018⟩
  | .addI _ => ⟨0xF0FF, 0xF01E⟩
  | .ldF _ => ⟨0xF0FF, 0xF029⟩
  | .ldB _ => ⟨0xF0FF, 0xF033⟩
  | .ldMemVx _ => ⟨0xF0FF, 0xF055⟩
  | .ldVxMem _ => ⟨0xF0FF, 0xF065⟩

/-- `OPCODE_MAP` (92_eei_decisions D14): the 34 rows of R95 in its order, as masks and patterns. -/
def opcodeMap : List OpcodeRow :=
  [⟨0xF0FF, 0x00E0⟩, ⟨0xF0FF, 0x00EE⟩, ⟨0xF000, 0x1000⟩, ⟨0xF000, 0x2000⟩, ⟨0xF000, 0x3000⟩,
    ⟨0xF000, 0x4000⟩, ⟨0xF000, 0x5000⟩, ⟨0xF000, 0x6000⟩, ⟨0xF000, 0x7000⟩] ++
  [⟨0xF00F, 0x8000⟩, ⟨0xF00F, 0x8001⟩, ⟨0xF00F, 0x8002⟩, ⟨0xF00F, 0x8003⟩, ⟨0xF00F, 0x8004⟩,
    ⟨0xF00F, 0x8005⟩, ⟨0xF00F, 0x8006⟩, ⟨0xF00F, 0x8007⟩, ⟨0xF00F, 0x800E⟩, ⟨0xF000, 0x9000⟩] ++
  [⟨0xF000, 0xA000⟩, ⟨0xF000, 0xB000⟩, ⟨0xF000, 0xC000⟩, ⟨0xF000, 0xD000⟩, ⟨0xF00F, 0xE00E⟩,
    ⟨0xF00F, 0xE001⟩] ++
  [⟨0xF0FF, 0xF007⟩, ⟨0xF0FF, 0xF00A⟩, ⟨0xF0FF, 0xF015⟩, ⟨0xF0FF, 0xF018⟩, ⟨0xF0FF, 0xF01E⟩,
    ⟨0xF0FF, 0xF029⟩, ⟨0xF0FF, 0xF033⟩, ⟨0xF0FF, 0xF055⟩, ⟨0xF0FF, 0xF065⟩]

/-- A word selects a row when `ir AND mask = match` (R95). -/
def OpcodeRow.selects (r : OpcodeRow) (w : Word) : Bool := w &&& r.mask == r.pattern

/-! ## The encoder -/

/-- The word of an instruction, from the encodings of R95 and R82, bit 15 on the left. -/
def encode : Instr → Word
  | .cls ign => wordOfByte 0x0#4 ign 0xE0#8
  | .ret ign => wordOfByte 0x0#4 ign 0xEE#8
  | .jp nnn => wordOfAddr 0x1#4 nnn
  | .call nnn => wordOfAddr 0x2#4 nnn
  | .seImm x kk => wordOfByte 0x3#4 x kk
  | .sneImm x kk => wordOfByte 0x4#4 x kk
  | .seReg x y ign => wordOfNibbles 0x5#4 x y ign
  | .ldImm x kk => wordOfByte 0x6#4 x kk
  | .addImm x kk => wordOfByte 0x7#4 x kk
  | .ldReg x y => wordOfNibbles 0x8#4 x y 0x0#4
  | .orReg x y => wordOfNibbles 0x8#4 x y 0x1#4
  | .andReg x y => wordOfNibbles 0x8#4 x y 0x2#4
  | .xorReg x y => wordOfNibbles 0x8#4 x y 0x3#4
  | .addReg x y => wordOfNibbles 0x8#4 x y 0x4#4
  | .subReg x y => wordOfNibbles 0x8#4 x y 0x5#4
  | .shr x ign => wordOfNibbles 0x8#4 x ign 0x6#4
  | .subnReg x y => wordOfNibbles 0x8#4 x y 0x7#4
  | .shl x ign => wordOfNibbles 0x8#4 x ign 0xE#4
  | .sneReg x y ign => wordOfNibbles 0x9#4 x y ign
  | .ldI nnn => wordOfAddr 0xA#4 nnn
  | .jpV0 nnn => wordOfAddr 0xB#4 nnn
  | .rnd x kk => wordOfByte 0xC#4 x kk
  | .drw x y n => wordOfNibbles 0xD#4 x y n
  | .skp x ign => wordOfNibbles 0xE#4 x ign 0xE#4
  | .sknp x ign => wordOfNibbles 0xE#4 x ign 0x1#4
  | .ldVxDT x => wordOfByte 0xF#4 x 0x07#8
  | .ldVxK x => wordOfByte 0xF#4 x 0x0A#8
  | .ldDTVx x => wordOfByte 0xF#4 x 0x15#8
  | .ldSTVx x => wordOfByte 0xF#4 x 0x18#8
  | .addI x => wordOfByte 0xF#4 x 0x1E#8
  | .ldF x => wordOfByte 0xF#4 x 0x29#8
  | .ldB x => wordOfByte 0xF#4 x 0x33#8
  | .ldMemVx x => wordOfByte 0xF#4 x 0x55#8
  | .ldVxMem x => wordOfByte 0xF#4 x 0x65#8

/-- The high byte of a word, stored at the lower address (20_memory R52). -/
def highByte (w : Word) : Byte := w.extractLsb' 8 8

/-- The low byte of a word, stored at the higher address (20_memory R52). -/
def lowByte (w : Word) : Byte := w.extractLsb' 0 8

/-- The host's question of one opcode-table row: the word's two bytes as memory holds them, given to
the decoder. -/
def decodeTableWord (nbits w : Nat) : Option Instr :=
  let ir : Word := BitVec.ofNat 16 (w % 2 ^ nbits)
  match decode [highByte ir, lowByte ir] with
  | .ok (i, _) => some i
  | .error _ => none

end Sys2Proof
end

