-- ==== Sys2Proof/Config.lean ====
section
/-! DEFINITION. The fixed sizes of this hardware (spec/00_scope.md R7: "none is variable in this
hardware") and the two free inputs the host chooses in every cycle (00_scope R15). -/

namespace Sys2Proof

/-- `MEM_SIZE` (R7): memory has the addresses 0 to 4095. -/
@[simp] abbrev Config.memSize : Nat := 4096

/-- `ROM_BASE` and `PC_RESET` (R7): where the ROM image is placed and where execution starts. -/
@[simp] abbrev Config.romBase : Nat := 0x200

/-- `ROM_MAX` (R7): the longest ROM image that fits. -/
@[simp] abbrev Config.romMax : Nat := 3584

/-- `FONT_SIZE` (R7): the font occupies the addresses 0 to 79. -/
@[simp] abbrev Config.fontSize : Nat := 80

/-- The key vector the host supplies to the cycle with a given number, where none has been placed in
the state's input queue. A free value (49_timers_and_key_wait R191: "a model must treat `keys` as a
free input of every cycle"): it has no body, so nothing can be proved of it. Log entry 1. -/
opaque Config.freeKeys : Nat → Vector Bool 16

/-- The random byte the host supplies to the cycle with a given number, where none has been placed in
the state's input queue. A free value (46_random R170: "a model must treat `rnd` as a free value").
Log entry 1. -/
opaque Config.freeRnd : Nat → Byte

end Sys2Proof
end

