-- ==== Sys2Proof/Machine/State.lean ====
section
/-! DEFINITION. The state of the core (spec/10_state.md R20), as plain data, and its reset value (R34).
The operations on it are in Machine/Memory.lean, Machine/Operands.lean, Machine/Flags.lean and
Machine/Ops.lean. -/

namespace Sys2Proof.Machine

/-- Memory as a list of (address, byte) pairs: addresses strictly rising, each below 4096, and no entry
equal to what an unlisted address reads as, which is the byte that `Reset` leaves there
(Machine/Memory.lean, `resetByte`). Log entry 5. -/
abbrev Memory := List Host.Cell

/-- The framebuffer, 64 x 32 one-bit pixels (R28): row `y` is entry `y`, and pixel `(x, y)` is bit `x`
of it, so that pixel `(x, y)` is bit `y * 64 + x` of the whole (92_eei_decisions D27). -/
abbrev Framebuffer := Vector (BitVec 64) 32

/-- The cause of a fault (60_exceptions R201). The order is that of the codes 0 to 5. -/
inductive FaultCause where
  /-- 0: no fault has occurred. -/
  | none
  /-- 1: a fetched word selects no instruction (R205). -/
  | decodeFault
  /-- 2: `CALL` with `sp = 16` (R206). -/
  | stackOverflow
  /-- 3: `RET` with `sp = 0` (R207). -/
  | stackUnderflow
  /-- 4: an access needs a byte above address 4095 (R208). -/
  | memOutOfBounds
  /-- 5: `SKP` or `SKNP` with `V[x] > 15` (R209). -/
  | keyIndexFault
deriving DecidableEq, Repr

/-- What the host supplies to one call of `Step` (00_scope R5): the key vector, indexed by key code, true
meaning the key is down, and one random byte. -/
structure HostInput where
  keys : Vector Bool 16
  rnd : Byte
deriving DecidableEq, Repr

/-- The state. The fields down to `faddr` are the spec's (R20); `inputs` and `cycle` are the model's own
and carry the arguments of the coming calls of `Step` (log entry 1). -/
structure State where
  /-- 4096 bytes (R29). -/
  mem : Memory
  /-- `V[0]` to `V[15]`; `V[15]` is `VF` (R21, R22). -/
  V : Vector Byte 16
  /-- The index register (R23). -/
  I : Word
  /-- The program counter (R24). -/
  pc : Word
  /-- The number of return addresses held, 0 to 16 (R26). -/
  sp : Fin 17
  /-- The return-address slots (R26). -/
  stack : Vector Word 16
  /-- The delay timer (R27). -/
  DT : Byte
  /-- The sound timer (R27). -/
  ST : Byte
  /-- The framebuffer (R28). -/
  fb : Framebuffer
  /-- Set by any fault; left only by `Reset` (R31). -/
  halted : Bool
  /-- The fault record: the cause (R31, R201). -/
  fcause : FaultCause
  /-- The fault record: `pc` at the start of the faulting cycle (R31). -/
  fpc : Word
  /-- The fault record: the faulting instruction word, meaningful when `firValid` (R31). -/
  fir : Word
  /-- The fault record: false exactly when the fetch itself faulted (R31). -/
  firValid : Bool
  /-- The fault record: the lowest out-of-bounds address, or the key index, or 0 (R31). -/
  faddr : Word
  /-- MODEL'S OWN: the arguments of the coming calls of `Step` that have been placed, next call first. -/
  inputs : List HostInput
  /-- MODEL'S OWN: the number of cycles run, which indexes the free inputs of Config. -/
  cycle : Nat
deriving DecidableEq, Repr

/-- The reasons a step stops without a next state. There are NONE: every error condition of this core
is a fault whose entry the spec describes (60_exceptions R203), so the cycle answers a next state, the
halted one, and a further step of a halted core answers that state again (40_execution_cycle R115).
No operation raises a member of this type. Log entry 2: exact, hence safe. -/
inductive Fault
deriving DecidableEq, Repr

/-- The reasons an operation is refused. -/
inductive Refusal where
  /-- An instruction of the table that has no meaning yet, by its mnemonic. Raised only by an arm of
  `exec`, and by none at present. Safe. -/
  | notModelled (mnemonic : String)
  /-- `Reset` given a ROM image of more than 3584 bytes: no core state results
  (70_reset_and_hazards R243). Raised by `Reset` only, never by a step. Safe. -/
  | romTooLong
deriving DecidableEq, Repr

/-- What `exec`, `step` and the meanings answer. -/
abbrev Outcome := Host.Outcome State Fault Refusal

/-- The state right after reset (10_state R34): that of `Reset` with the empty ROM image. Memory lists
nothing, so it reads as the font followed by zeros. The two last fields are the model's own
(DESIGN CHOICE, log entry 1). -/
def State.reset : State where
  mem := []
  V := Vector.replicate 16 0
  I := 0
  pc := 0x200
  sp := 0
  stack := Vector.replicate 16 0
  DT := 0
  ST := 0
  fb := Vector.replicate 32 0
  halted := false
  fcause := .none
  fpc := 0
  fir := 0
  firValid := false
  faddr := 0
  inputs := []
  cycle := 0

end Sys2Proof.Machine
end

