-- ==== Sys2Proof/Machine/Memory.lean ====
section
/-! DEFINITION. The one memory of the core (spec/20_memory.md): what reset leaves in it, reading and
writing one byte, the canonical form, and the range-checked accesses of R55 to R57. -/

namespace Sys2Proof.Machine

/-- `FONT` (10_state R33): the 16 glyphs of 5 bytes, digit 0 first. -/
def font : List Byte :=
  [0xF0, 0x90, 0x90, 0x90, 0xF0, 0x20, 0x60, 0x20, 0x20, 0x70, 0xF0, 0x10, 0xF0, 0x80, 0xF0,
    0xF0, 0x10, 0xF0, 0x10, 0xF0] ++
  [0x90, 0x90, 0xF0, 0x10, 0x10, 0xF0, 0x80, 0xF0, 0x10, 0xF0, 0xF0, 0x80, 0xF0, 0x90, 0xF0,
    0xF0, 0x10, 0x20, 0x40, 0x40] ++
  [0xF0, 0x90, 0xF0, 0x90, 0xF0, 0xF0, 0x90, 0xF0, 0x10, 0xF0, 0xF0, 0x90, 0xF0, 0x90, 0x90,
    0xE0, 0x90, 0xE0, 0x90, 0xE0] ++
  [0xF0, 0x80, 0x80, 0x80, 0xF0, 0xE0, 0x90, 0x90, 0x90, 0xE0, 0xF0, 0x80, 0xF0, 0x80, 0xF0,
    0xF0, 0x80, 0xF0, 0x80, 0x80]

/-- What `Reset` leaves at an address when no ROM byte is placed there: the font at 0x000..0x04F and 0
everywhere else (20_memory R51, 10_state R34). It is what an unlisted address reads as. -/
def resetByte (a : Nat) : Byte := font.getD a 0

/-- The byte at address `a`. -/
def Memory.read : Memory → Nat → Byte
  | [], a => resetByte a
  | (b, w) :: rest, a => if a = b then w else Memory.read rest a

/-- Memory with the byte `v` at address `a`. An entry that would equal the reset byte is left out. -/
def Memory.write : Memory → Nat → Byte → Memory
  | [], a, v => if v = resetByte a then [] else [(a, v)]
  | (b, w) :: rest, a, v =>
    if a < b then if v = resetByte a then (b, w) :: rest else (a, v) :: (b, w) :: rest
    else if a = b then if v = resetByte a then rest else (a, v) :: rest
    else (b, w) :: Memory.write rest a v

/-- The bytes written one after another at rising addresses from `a` (20_memory R59). -/
def Memory.writeBytes : Memory → Nat → List Byte → Memory
  | m, _, [] => m
  | m, a, v :: vs => Memory.writeBytes (Memory.write m a v) (a + 1) vs

/-- The canonical form from a lower bound on: strictly rising addresses below 4096, no entry equal to
the reset byte. -/
def Memory.wfFrom : Nat → Memory → Bool
  | _, [] => true
  | lo, (a, v) :: rest =>
    decide (lo ≤ a) && decide (a < Config.memSize) && (v != resetByte a) && Memory.wfFrom (a + 1) rest

/-- The canonical form of a memory. -/
def Memory.wf (m : Memory) : Bool := Memory.wfFrom 0 m

/-- Every byte of an access of `n` bytes at `addr` exists: `addr + n - 1` is at most 4095. An access of
no bytes touches nothing (20_memory R57). The sum is of naturals and never wraps. -/
def inRange (addr n : Nat) : Bool := n == 0 || decide (addr + n ≤ Config.memSize)

/-- The lowest out-of-bounds address of an access that leaves memory (60_exceptions R208). -/
def lowestOutOfBounds (addr : Nat) : Nat := max addr Config.memSize

/-- `n` bytes read at `addr` in ascending order, or the lowest out-of-bounds address; the whole range is
checked first (20_memory R55, R57). -/
def Memory.readRange (m : Memory) (addr n : Nat) : Except Nat (List Byte) :=
  if inRange addr n then .ok ((List.range n).map fun k => m.read (addr + k))
  else .error (lowestOutOfBounds addr)

/-- The bytes written at `addr` in ascending order, or the lowest out-of-bounds address and nothing
written; the whole range is checked first (20_memory R56, R57). -/
def Memory.writeRange (m : Memory) (addr : Nat) (bytes : List Byte) : Except Nat Memory :=
  if inRange addr bytes.length then .ok (m.writeBytes addr bytes) else .error (lowestOutOfBounds addr)

end Sys2Proof.Machine
end

