-- ==== Sys2Proof/Machine/Operands.lean ====
section
/-! DEFINITION. The operand forms (spec/30_encoding.md R83, 48_memory_transfer R180): a `V` register,
the register `V[0]`, the immediates, the memory base `I`, a key, and the inputs of the cycle. -/

namespace Sys2Proof.Machine

/-- The index of `VF` (10_state R22). -/
def flagReg : RegIdx := 0xF#4

/-- `V[x]` (10_state R21: all 16 are ordinary registers). -/
def State.v (s : State) (x : RegIdx) : Byte := s.V[x.toNat]

/-- `V[x] <- b`. -/
def State.setV (s : State) (x : RegIdx) (b : Byte) : State := { s with V := s.V.set x.toNat b }

/-- `zext_16(nnn)`: an address operand (30_encoding R83). -/
def addrOperand (nnn : Addr12) : Word := nnn.setWidth 16

/-- `zext_16(Vx)`: a byte used as a 16-bit addend (45_index_addressing R166). -/
def zeroExtend16 (b : Byte) : Word := b.setWidth 16

/-- The target of `JP V0, nnn`: `V[0]` added into the low byte of `nnn` modulo 256, bits 11..8 kept
(41_control_flow R129, decision D21). -/
def jumpV0Target (nnn : Addr12) (v0 : Byte) : Word :=
  ((nnn.extractLsb' 8 4 ++ (nnn.extractLsb' 0 8 + v0) : BitVec 12)).setWidth 16

/-- `I` as the natural-number base of a memory access, to which offsets are added without wraparound
(20_memory R57). -/
def State.base (s : State) : Nat := s.I.toNat

/-- The address of the font glyph of digit `b`, `FONT_BASE + 5 * b` with `FONT_BASE = 0`, unmasked
(45_index_addressing R167, decision D19). -/
def glyphAddress (b : Byte) : Word := 5#16 * zeroExtend16 b

/-- The arguments of the call of `Step` that runs the current cycle: the next placed input or, where
none is placed, the free input of this cycle (00_scope R5, R15). Log entry 1. -/
def State.input (s : State) : HostInput :=
  match s.inputs with
  | i :: _ => i
  | [] => ⟨Config.freeKeys s.cycle, Config.freeRnd s.cycle⟩

/-- `rnd` (46_random R170). -/
def State.rnd (s : State) : Byte := s.input.rnd

/-- `keys[k]` for a key code `k` in 0..15, and nothing for a larger number (60_exceptions R209). -/
def State.key (s : State) (k : Byte) : Option Bool := s.input.keys[k.toNat]?

/-- The least key code that is down (49_timers_and_key_wait R192). -/
def State.leastKeyDown (s : State) : Option Nat := s.input.keys.toList.findIdx? id

/-- The decimal digits of a byte, hundreds first (48_memory_transfer R181). -/
def bcdDigits (b : Byte) : List Byte :=
  [BitVec.ofNat 8 (b.toNat / 100), BitVec.ofNat 8 (b.toNat / 10 % 10), BitVec.ofNat 8 (b.toNat % 10)]

end Sys2Proof.Machine
end

