-- ==== Sys2Proof/Machine/Flags.lean ====
section
/-! DEFINITION. Every flag computation of the machine (spec/10_state.md R22, 44_alu R150): the value
written to `VF`, and the write of a result and its flag, the flag last (40_execution_cycle R117). The
collision flag of `DRW` is computed in Machine/Display.lean with the drawing. -/

namespace Sys2Proof.Machine

/-- A flag as the u8 that `VF` holds (10_state R22). -/
def flagByte (f : Bool) : Byte := if f then 1#8 else 0#8

/-- The carry of `a + b`: the unsigned sum exceeds 255 (44_alu R155). -/
def carryOut (a b : Byte) : Bool := decide (a.toNat + b.toNat > 255)

/-- No borrow of `a - b`: the minuend is at least the subtrahend (44_alu R156, R158). -/
def noBorrow (a b : Byte) : Bool := decide (a.toNat ≥ b.toNat)

/-- The bit a right shift by one moves out (44_alu R157). -/
def shiftedOutRight (a : Byte) : Bool := a.getLsbD 0

/-- The bit a left shift by one moves out (44_alu R159). -/
def shiftedOutLeft (a : Byte) : Bool := a.getLsbD 7

/-- `VF <- f`. -/
def State.setFlag (s : State) (f : Bool) : State := s.setV flagReg (flagByte f)

/-- The result written to `V[x]` and then the flag to `VF`, so that with `x = 0xF` the flag remains
(40_execution_cycle R117, decision D11). -/
def State.setResultAndFlag (s : State) (x : RegIdx) (result : Byte) (f : Bool) : State :=
  (s.setV x result).setFlag f

end Sys2Proof.Machine
end

