-- ==== Sys2Proof/WellFormed.lean ====
section
/-! DEFINITION. The checks on instruction terms and ROM images that the types do not already make.
The operand fields have exactly the widths of spec/30_encoding.md R81, so EVERY term of `Instr` is an
instruction of the machine and has an encoding; what a check can still tell apart is the canonical
encoding (R94). The ROM check is 70_reset_and_hazards R243. -/

namespace Sys2Proof

/-- The canonical encoding of R95's "canonical" column: every unexamined bit is 0, except that bits
7..4 of `Ex9E` and `ExA1` are 9 and A (30_encoding R94; the shifts' `y` is 0 by R90). -/
def Instr.isCanonical : Instr → Bool
  | .cls ign | .ret ign => ign == 0x0#4
  | .seReg _ _ ign | .sneReg _ _ ign => ign == 0x0#4
  | .shr _ ign | .shl _ ign => ign == 0x0#4
  | .skp _ ign => ign == 0x9#4
  | .sknp _ ign => ign == 0xA#4
  | .jp _ | .call _ | .seImm _ _ | .sneImm _ _ | .ldImm _ _ | .addImm _ _ | .ldReg _ _ | .orReg _ _
  | .andReg _ _ | .xorReg _ _ | .addReg _ _ | .subReg _ _ | .subnReg _ _ | .ldI _ | .jpV0 _ | .rnd _ _
  | .drw _ _ _ | .ldVxDT _ | .ldVxK _ | .ldDTVx _ | .ldSTVx _ | .addI _ | .ldF _ | .ldB _ | .ldMemVx _
  | .ldVxMem _ => true

/-- The same instruction in its canonical encoding (30_encoding R94: "An alias executes exactly as the
canonical encoding does"). -/
def Instr.canonicalForm : Instr → Instr
  | .cls _ => .cls 0x0#4
  | .ret _ => .ret 0x0#4
  | .seReg x y _ => .seReg x y 0x0#4
  | .sneReg x y _ => .sneReg x y 0x0#4
  | .shr x _ => .shr x 0x0#4
  | .shl x _ => .shl x 0x0#4
  | .skp x _ => .skp x 0x9#4
  | .sknp x _ => .sknp x 0xA#4
  | .jp nnn => .jp nnn
  | .call nnn => .call nnn
  | .seImm x kk => .seImm x kk
  | .sneImm x kk => .sneImm x kk
  | .ldImm x kk => .ldImm x kk
  | .addImm x kk => .addImm x kk
  | .ldReg x y => .ldReg x y
  | .orReg x y => .orReg x y
  | .andReg x y => .andReg x y
  | .xorReg x y => .xorReg x y
  | .addReg x y => .addReg x y
  | .subReg x y => .subReg x y
  | .subnReg x y => .subnReg x y
  | .ldI nnn => .ldI nnn
  | .jpV0 nnn => .jpV0 nnn
  | .rnd x kk => .rnd x kk
  | .drw x y n => .drw x y n
  | .ldVxDT x => .ldVxDT x
  | .ldVxK x => .ldVxK x
  | .ldDTVx x => .ldDTVx x
  | .ldSTVx x => .ldSTVx x
  | .addI x => .addI x
  | .ldF x => .ldF x
  | .ldB x => .ldB x
  | .ldMemVx x => .ldMemVx x
  | .ldVxMem x => .ldVxMem x

/-- A ROM image that `Reset` accepts: at most 3584 bytes (70_reset_and_hazards R243). -/
def Rom.fits (rom : List Byte) : Bool := decide (rom.length ≤ Config.romMax)

end Sys2Proof
end

