-- ==== Sys2Proof/Machine/Ops.lean ====
section
/-! DEFINITION. The shared operations of the machine: advancing `pc`, the call stack, fault entry (ONE
operation) with `Reset` beside it as the only way out of the halted state, the range-checked memory
accesses of an instruction, the fetch, the timer tick and the end of a cycle. -/

namespace Sys2Proof.Machine

/-! ## The program counter (40_execution_cycle R113) -/

/-- `pc <- target`. -/
def State.jump (s : State) (target : Word) : State := { s with pc := target }

/-- `pc <- pc + 2`, the step of sequential execution. -/
def State.advance (s : State) : State := s.jump (s.pc + 2#16)

/-- `pc <- pc + 4` if the condition holds, else `pc <- pc + 2` (42_conditional_skip R135). -/
def State.skipIf (s : State) (c : Bool) : State := s.jump (if c then s.pc + 4#16 else s.pc + 2#16)

/-! ## The call stack (10_state R26) -/

/-- `stack[sp] <- ret; sp <- sp + 1`, or nothing when all 16 slots are in use. -/
def State.push (s : State) (ret : Word) : Option State :=
  if h : s.sp.val < 16 then
    some { s with stack := s.stack.set s.sp.val ret, sp := ⟨s.sp.val + 1, by omega⟩ }
  else none

/-- `sp <- sp - 1`, with the return address `stack[sp]` read at the new `sp`; nothing when `sp = 0`. The
slot keeps its contents. -/
def State.pop (s : State) : Option (Word × State) :=
  if h : 0 < s.sp.val then
    some (s.stack[s.sp.val - 1], { s with sp := ⟨s.sp.val - 1, by omega⟩ })
  else none

/-! ## Taking a fault, and leaving it -/

/-- Fault entry (60_exceptions R203, R204): `halted` is set and the fault record is written, and nothing
else changes. `ir` is the instruction word, or nothing when the fetch itself faulted. -/
def State.raise (s : State) (cause : FaultCause) (ir : Option Word) (addr : Word) : State :=
  { s with
    halted := true
    fcause := cause
    fpc := s.pc
    fir := ir.getD 0#16
    firValid := ir.isSome
    faddr := addr }

/-- `MemOutOfBounds`, with the lowest out-of-bounds address (60_exceptions R208). -/
def State.raiseOutOfBounds (s : State) (ir : Option Word) (addr : Nat) : State :=
  s.raise .memOutOfBounds ir (BitVec.ofNat 16 addr)

/-- `Reset(rom)` (70_reset_and_hazards R240): the reset state with the image at 0x200, whatever the state
was before. An image that does not fit is refused (R243). There is no return from a fault: `Reset` is
the only exit from the halted state (60_exceptions R211). -/
def State.resetWith (rom : List Byte) : Outcome :=
  if Rom.fits rom then
    .next { State.reset with mem := State.reset.mem.writeBytes Config.romBase rom }
  else .refused .romTooLong

/-! ## The memory accesses of an instruction (48_memory_transfer R180) -/

/-- The bytes stored at `I`, `I + 1`, ..; a fault of the instruction `i` if any lies above 4095, with
nothing stored (20_memory R57). `pc` advances after a store. -/
def State.storeAtI (s : State) (i : Instr) (bytes : List Byte) : State :=
  match s.mem.writeRange s.base bytes with
  | .ok m => { s with mem := m }.advance
  | .error a => s.raiseOutOfBounds (some (encode i)) a

/-- `n` bytes read at `I`, `I + 1`, .. and handed on; a fault of the instruction `i` if any lies above
4095 (20_memory R57). `pc` advances after what is done with them. -/
def State.loadAtI (s : State) (i : Instr) (n : Nat) (use : List Byte → State) : State :=
  match s.mem.readRange s.base n with
  | .ok bytes => (use bytes).advance
  | .error a => s.raiseOutOfBounds (some (encode i)) a

/-! ## The cycle around an instruction -/

/-- The fetch: the big-endian word at `pc`, `pc + 1`, or the lowest out-of-bounds address
(40_execution_cycle R111). -/
def State.fetch (s : State) : Except Nat Word :=
  (s.mem.readRange s.pc.toNat 2).map fun bytes => wordOfBytes (bytes.getD 0 0) (bytes.getD 1 0)

/-- One timer's tick: it falls by one unless it is 0 (10_state R27). -/
def tickDown (t : Byte) : Byte := if t = 0#8 then 0#8 else t - 1#8

/-- Both timers tick (40_execution_cycle R114). -/
def State.tick (s : State) : State := { s with DT := tickDown s.DT, ST := tickDown s.ST }

/-- The call of `Step` is over: the next call brings its own arguments (log entry 1). -/
def State.nextInput (s : State) : State := { s with inputs := s.inputs.tail, cycle := s.cycle + 1 }

/-- The end of a cycle that was run: the timers tick if it completed without a fault (R114, R118). A
running core is halted at the end of a cycle exactly when the cycle raised a fault. -/
def State.endCycle (s : State) : State := (if s.halted then s else s.tick).nextInput

/-- A cycle whose fetch leaves memory (R111). -/
def State.fetchFault (s : State) (addr : Nat) : State := (s.raiseOutOfBounds none addr).endCycle

/-- A cycle that fetched a word which selects no instruction (60_exceptions R205). -/
def State.decodeFault (s : State) (ir : Word) : State := (s.raise .decodeFault (some ir) 0#16).endCycle

/-- Two bytes of an instruction word stored at an address, high byte first: a program loaded from
outside (00_scope R7 `ROM_DELIVERY`). -/
def Memory.placeWord (m : Memory) (a : Nat) (ir : Word) : Memory :=
  m.writeBytes a [highByte ir, lowByte ir]

/-- An address the fetch can read: `pc` itself, or the entry point 0x200 if `pc` lies outside memory. -/
def State.fetchablePc (s : State) : Word := if inRange s.pc.toNat 2 then s.pc else 0x200#16

end Sys2Proof.Machine
end

