-- ==== Sys2Proof/Machine/Alu.lean ====
section
/-! DEFINITION. The register-register ALU instructions, family 0x8 (spec/44_alu.md). -/

namespace Sys2Proof.Machine

/-- `LD Vx, Vy` (R151). -/
def execLdReg (x y : RegIdx) (s : State) : Outcome := .next (s.setV x (s.v y)).advance

/-- `OR Vx, Vy` (R152): `VF` is not changed (decision D12). -/
def execOrReg (x y : RegIdx) (s : State) : Outcome := .next (s.setV x (s.v x ||| s.v y)).advance

/-- `AND Vx, Vy` (R153). -/
def execAndReg (x y : RegIdx) (s : State) : Outcome := .next (s.setV x (s.v x &&& s.v y)).advance

/-- `XOR Vx, Vy` (R154). -/
def execXorReg (x y : RegIdx) (s : State) : Outcome := .next (s.setV x (s.v x ^^^ s.v y)).advance

/-- `ADD Vx, Vy` (R155): `VF` is the carry. -/
def execAddReg (x y : RegIdx) (s : State) : Outcome :=
  .next (s.setResultAndFlag x (s.v x + s.v y) (carryOut (s.v x) (s.v y))).advance

/-- `SUB Vx, Vy` (R156): `VF` is 1 when there was no borrow. -/
def execSubReg (x y : RegIdx) (s : State) : Outcome :=
  .next (s.setResultAndFlag x (s.v x - s.v y) (noBorrow (s.v x) (s.v y))).advance

/-- `SHR Vx` (R157): `Vx` alone is shifted; `VF` is the bit shifted out. -/
def execShr (x : RegIdx) (s : State) : Outcome :=
  .next (s.setResultAndFlag x (s.v x >>> 1) (shiftedOutRight (s.v x))).advance

/-- `SUBN Vx, Vy` (R158): `Vy - Vx`; `VF` is 1 when there was no borrow. -/
def execSubnReg (x y : RegIdx) (s : State) : Outcome :=
  .next (s.setResultAndFlag x (s.v y - s.v x) (noBorrow (s.v y) (s.v x))).advance

/-- `SHL Vx` (R159): `Vx` alone is shifted; `VF` is the bit shifted out. -/
def execShl (x : RegIdx) (s : State) : Outcome :=
  .next (s.setResultAndFlag x (s.v x <<< 1) (shiftedOutLeft (s.v x))).advance

end Sys2Proof.Machine
end

