-- ==== Sys2Proof/Machine/ControlFlow.lean ====
section
/-! DEFINITION. The control-flow instructions (spec/41_control_flow.md). -/

namespace Sys2Proof.Machine

/-- `JP nnn` (R126). -/
def execJp (nnn : Addr12) (s : State) : Outcome := .next (s.jump (addrOperand nnn))

/-- `CALL nnn` (R127): `StackOverflow` when all 16 slots are in use. -/
def execCall (nnn : Addr12) (s : State) : Outcome :=
  .next <| match s.push (s.pc + 2#16) with
    | some t => t.jump (addrOperand nnn)
    | none => s.raise .stackOverflow (some (encode (.call nnn))) 0#16

/-- `RET` (R128): `StackUnderflow` when the stack is empty. -/
def execRet (ign : Nibble) (s : State) : Outcome :=
  .next <| match s.pop with
    | some (ret, t) => t.jump ret
    | none => s.raise .stackUnderflow (some (encode (.ret ign))) 0#16

/-- `JP V0, nnn` (R129). -/
def execJpV0 (nnn : Addr12) (s : State) : Outcome := .next (s.jump (jumpV0Target nnn (s.v 0#4)))

end Sys2Proof.Machine
end

