-- ==== Sys2Proof/Machine/Display.lean ====
section
/-! DEFINITION. The display instructions (spec/47_display.md): `CLS`, and the sprite draw with its
clipping and its collision detector. -/

namespace Sys2Proof.Machine

/-- The pixel `(x, y)` (R173); false outside the 64 x 32 grid. -/
def Framebuffer.pixel (fb : Framebuffer) (x y : Nat) : Bool := if h : y < 32 then fb[y].getLsbD x else false

/-- The pixel `(x, y)` inverted: XOR with a sprite bit that is 1. -/
def Framebuffer.flip (fb : Framebuffer) (x y : Nat) : Framebuffer :=
  if h : y < 32 then fb.set y (fb[y] ^^^ BitVec.twoPow 64 x) else fb

/-- The framebuffer while a sprite is drawn, and whether a collision has occurred (R176). -/
structure Canvas where
  fb : Framebuffer
  hit : Bool
deriving DecidableEq, Repr

/-- One sprite bit at the position `(px, py)` (R174): a bit that is 0 or falls outside the grid does
nothing; a bit that is 1 inverts the pixel and collides when the pixel was 1. -/
def Canvas.plot (cv : Canvas) (px py : Nat) (bit : Bool) : Canvas :=
  if px ≤ 63 ∧ py ≤ 31 ∧ bit = true then ⟨cv.fb.flip px py, cv.hit || cv.fb.pixel px py⟩ else cv

/-- One row of 8 sprite bits from the column `x0`, bit 7 leftmost (R173). -/
def Canvas.drawRow (cv : Canvas) (x0 py : Nat) (row : Byte) : Canvas :=
  (List.range 8).foldl (fun acc c => acc.plot (x0 + c) py (row.getLsbD (7 - c))) cv

/-- The rows of a sprite, the first at `py` and each later one below it (R174). -/
def Canvas.drawRows (cv : Canvas) (x0 : Nat) : Nat → List Byte → Canvas
  | _, [] => cv
  | py, row :: rows => Canvas.drawRows (cv.drawRow x0 py row) x0 (py + 1) rows

/-- `CLS` (R175). -/
def execCls (s : State) : Outcome := .next { s with fb := Vector.replicate 32 0 }.advance

/-- The drawing of `DRW` with the sprite's bytes at hand: `Vx` and `Vy` are read before `VF` is written
(R174, 40_execution_cycle R116). -/
def State.draw (s : State) (x y : RegIdx) (rows : List Byte) : State :=
  let cv := Canvas.drawRows ⟨s.fb, false⟩ ((s.v x).toNat % 64) ((s.v y).toNat % 32) rows
  { s with fb := cv.fb }.setFlag cv.hit

/-- `DRW Vx, Vy, n` (R174): all `n` bytes are range-checked, those of clipped rows too (decision D17). -/
def execDrw (x y : RegIdx) (n : Nibble) (s : State) : Outcome :=
  .next (s.loadAtI (.drw x y n) n.toNat fun rows => s.draw x y rows)

end Sys2Proof.Machine
end

