-- ==== Sys2Proof/Machine/Index.lean ====
section
/-! DEFINITION. The index-register instructions (spec/45_index_addressing.md). -/

namespace Sys2Proof.Machine

/-- `I <- a`. -/
def State.setI (s : State) (a : Word) : State := { s with I := a }

/-- `LD I, nnn` (R165). -/
def execLdI (nnn : Addr12) (s : State) : Outcome := .next (s.setI (addrOperand nnn)).advance

/-- `ADD I, Vx` (R166): wraps modulo 65536, no flag (decision D12). -/
def execAddI (x : RegIdx) (s : State) : Outcome := .next (s.setI (s.I + zeroExtend16 (s.v x))).advance

/-- `LD F, Vx` (R167): the address of a font glyph. -/
def execLdF (x : RegIdx) (s : State) : Outcome := .next (s.setI (glyphAddress (s.v x))).advance

end Sys2Proof.Machine
end

