-- ==== Sys2Proof/Machine/Random.lean ====
section
/-! DEFINITION. The random instruction (spec/46_random.md). -/

namespace Sys2Proof.Machine

/-- `RND Vx, kk` (R171): the random byte of this cycle under a mask. -/
def execRnd (x : RegIdx) (kk : Byte) (s : State) : Outcome := .next (s.setV x (s.rnd &&& kk)).advance

end Sys2Proof.Machine
end

