-- ==== Sys2Proof/Machine/RegImm.lean ====
section
/-! DEFINITION. The register-immediate instructions (spec/43_register_immediate.md). -/

namespace Sys2Proof.Machine

/-- `LD Vx, kk` (R145). -/
def execLdImm (x : RegIdx) (kk : Byte) (s : State) : Outcome := .next (s.setV x kk).advance

/-- `ADD Vx, kk` (R146): wraps modulo 256, no flag. -/
def execAddImm (x : RegIdx) (kk : Byte) (s : State) : Outcome := .next (s.setV x (s.v x + kk)).advance

end Sys2Proof.Machine
end

