-- ==== Sys2Proof/Machine/Skip.lean ====
section
/-! DEFINITION. The conditional skips (spec/42_conditional_skip.md). -/

namespace Sys2Proof.Machine

/-- `SE Vx, kk` (R136). -/
def execSeImm (x : RegIdx) (kk : Byte) (s : State) : Outcome := .next (s.skipIf (s.v x == kk))

/-- `SNE Vx, kk` (R137). -/
def execSneImm (x : RegIdx) (kk : Byte) (s : State) : Outcome := .next (s.skipIf (s.v x != kk))

/-- `SE Vx, Vy` (R138). -/
def execSeReg (x y : RegIdx) (s : State) : Outcome := .next (s.skipIf (s.v x == s.v y))

/-- `SNE Vx, Vy` (R139). -/
def execSneReg (x y : RegIdx) (s : State) : Outcome := .next (s.skipIf (s.v x != s.v y))

/-- A skip on the state of the key numbered `Vx`: `KeyIndexFault` of the instruction `i` when there is no
key of that number (60_exceptions R209). -/
def State.skipOnKey (s : State) (i : Instr) (x : RegIdx) (down : Bool) : State :=
  match s.key (s.v x) with
  | some k => s.skipIf (k == down)
  | none => s.raise .keyIndexFault (some (encode i)) (zeroExtend16 (s.v x))

/-- `SKP Vx` (R140). -/
def execSkp (x : RegIdx) (ign : Nibble) (s : State) : Outcome := .next (s.skipOnKey (.skp x ign) x true)

/-- `SKNP Vx` (R141). -/
def execSknp (x : RegIdx) (ign : Nibble) (s : State) : Outcome :=
  .next (s.skipOnKey (.sknp x ign) x false)

end Sys2Proof.Machine
end

