-- ==== Sys2Proof/Machine/Timer.lean ====
section
/-! DEFINITION. The timer transfers and the key wait (spec/49_timers_and_key_wait.md). -/

namespace Sys2Proof.Machine

/-- `LD Vx, DT` (R187): the value before this cycle's tick. -/
def execLdVxDT (x : RegIdx) (s : State) : Outcome := .next (s.setV x s.DT).advance

/-- `LD DT, Vx` (R188). -/
def execLdDTVx (x : RegIdx) (s : State) : Outcome := .next { s with DT := s.v x }.advance

/-- `LD ST, Vx` (R189). -/
def execLdSTVx (x : RegIdx) (s : State) : Outcome := .next { s with ST := s.v x }.advance

/-- `LD Vx, K` (R192): the least key that is down, or, with no key down, nothing: `pc` is left, so the
same instruction runs again in the next cycle. -/
def execLdVxK (x : RegIdx) (s : State) : Outcome :=
  .next <| match s.leastKeyDown with
    | some k => (s.setV x (BitVec.ofNat 8 k)).advance
    | none => s

end Sys2Proof.Machine
end

