-- ==== Sys2Proof/Machine/Transfer.lean ====
section
/-! DEFINITION. The memory-transfer instructions (spec/48_memory_transfer.md). -/

namespace Sys2Proof.Machine

/-- The values of `V[0]` to `V[x]`. -/
def State.firstRegs (s : State) (x : RegIdx) : List Byte := s.V.toList.take (x.toNat + 1)

/-- The bytes written to `V[0]`, `V[1]`, .. in order; the registers beyond them keep their values. -/
def State.setFirstRegs (s : State) (bytes : List Byte) : State :=
  { s with V := Vector.ofFn fun k : Fin 16 => bytes.getD k.val s.V[k] }

/-- `LD B, Vx` (R181). -/
def execLdB (x : RegIdx) (s : State) : Outcome := .next (s.storeAtI (.ldB x) (bcdDigits (s.v x)))

/-- `LD [I], Vx` (R182): `x + 1` bytes. -/
def execLdMemVx (x : RegIdx) (s : State) : Outcome := .next (s.storeAtI (.ldMemVx x) (s.firstRegs x))

/-- `LD Vx, [I]` (R183): `x + 1` bytes. -/
def execLdVxMem (x : RegIdx) (s : State) : Outcome :=
  .next (s.loadAtI (.ldVxMem x) (x.toNat + 1) fun bytes => s.setFirstRegs bytes)

end Sys2Proof.Machine
end

