-- ==== Sys2Proof/Machine/Step.lean ====
section
/-! DEFINITION. One call of `Step` (spec/40_execution_cycle.md R110): halted check, fetch, decode,
handler, timer tick. -/

namespace Sys2Proof.Machine

/-- One cycle. A halted core does nothing (R115); a fetch outside memory and an undefined word are taken
as faults (R111, R205); otherwise the decoded instruction runs and the cycle ends with the tick, unless
the handler faulted (R114, R118). -/
def step (s : State) : Host.Outcome State Fault Refusal :=
  if s.halted then .next s
  else
    match s.fetch with
    | .error addr => .next (s.fetchFault addr)
    | .ok ir =>
      match decodeWord ir with
      | .error _ => .next (s.decodeFault ir)
      | .ok i =>
        match exec i s with
        | .next t => .next t.endCycle
        | .fault r => .fault r
        | .refused r => .refused r

/-- The state with an instruction word placed where the next step fetches: the word's two bytes at `pc`,
high byte first. The fetch needs a core that is not halted and a `pc` inside memory, and so these are
set where they are not so. It stands for a program loaded from outside (log entry 8). -/
def State.withFetchWord (s : State) (nbits w : Nat) : State :=
  { s with
    mem := s.mem.placeWord s.fetchablePc.toNat (BitVec.ofNat 16 (w % 2 ^ nbits))
    pc := s.fetchablePc
    halted := false }

end Sys2Proof.Machine
end

