-- ==== Sys2Proof/Safety.lean ====
section
/-! DEFINITION. What the claims are stated in: the parts of the state an instruction may change, the
frame, what a fault leaves, the invariant of the machine, and what a safe run is. -/

namespace Sys2Proof.Machine

/-- The parts of the state, but for `pc`, that an instruction can change. -/
inductive Part where
  /-- One register `V[x]`. -/
  | v (x : RegIdx)
  /-- The index register `I`. -/
  | index
  /-- The call stack: `sp` and the slots. -/
  | stack
  /-- The delay timer. -/
  | delay
  /-- The sound timer. -/
  | sound
  /-- The framebuffer. -/
  | display
  /-- The `count` bytes of memory from the address `first`. -/
  | memory (first count : Nat)
  /-- `halted` and the fault record. -/
  | record
deriving DecidableEq, Repr

/-- The frame: of everything in the state but `pc`, only the listed parts may differ. Memory is compared
byte by byte through its read, outside the listed ranges, and the framebuffer pixel by pixel. The placed inputs and the cycle count are
never touched by an instruction. -/
structure OnlyChanged (parts : List Part) (s t : State) : Prop where
  regs : ∀ x, Part.v x ∉ parts → t.v x = s.v x
  index : Part.index ∉ parts → t.I = s.I
  stackPointer : Part.stack ∉ parts → t.sp = s.sp
  stackSlots : Part.stack ∉ parts → t.stack = s.stack
  delay : Part.delay ∉ parts → t.DT = s.DT
  sound : Part.sound ∉ parts → t.ST = s.ST
  display : Part.display ∉ parts → ∀ px py, t.fb.pixel px py = s.fb.pixel px py
  memory : ∀ a, (∀ first count, Part.memory first count ∈ parts → a < first ∨ first + count ≤ a) →
    t.mem.read a = s.mem.read a
  halted : Part.record ∉ parts → t.halted = s.halted
  cause : Part.record ∉ parts → t.fcause = s.fcause
  faultPc : Part.record ∉ parts → t.fpc = s.fpc
  faultWord : Part.record ∉ parts → t.fir = s.fir
  faultWordValid : Part.record ∉ parts → t.firValid = s.firValid
  faultAddr : Part.record ∉ parts → t.faddr = s.faddr
  inputs : t.inputs = s.inputs
  cycle : t.cycle = s.cycle

/-- What a fault leaves (60_exceptions R203, R204): the core is halted, the record holds the cause, the
address and the word of the faulting instruction (no word when the fetch itself faulted) and the
recorded address, and nothing else has changed, `pc` among it. -/
structure FaultTaken (cause : FaultCause) (ir : Option Word) (addr : Word) (s t : State) : Prop where
  halted : t.halted = true
  cause : t.fcause = cause
  faultPc : t.fpc = s.pc
  faultWord : t.fir = ir.getD 0
  faultWordValid : t.firValid = ir.isSome
  faultAddr : t.faddr = addr
  pc : t.pc = s.pc
  rest : OnlyChanged [.record] s t

/-- The sprite bit that falls on the pixel `(px, py)` when the rows are drawn with their top left corner
at `(x0, y0)` (47_display R173, R174): row `py - y0`, bit `7 - (px - x0)`; none outside the sprite. -/
def spriteBit (rows : List Byte) (x0 y0 px py : Nat) : Bool :=
  if x0 ≤ px ∧ px < x0 + 8 ∧ y0 ≤ py then (rows.getD (py - y0) 0).getLsbD (7 - (px - x0)) else false

/-- The bytes in memory at `I`, `I + 1`, .. that a draw of `n` rows reads. -/
def State.spriteRows (s : State) (n : Nat) : List Byte :=
  (List.range n).map fun k => s.mem.read (s.base + k)

/-- The invariant of the machine: what 10_state R24 (`pc` is at most 4098), R29, R31 and R32 (the legal
values of the registers) say of every state a run reaches, and the canonical form of memory. -/
structure State.Inv (s : State) : Prop where
  memory : s.mem.wf = true
  pc : s.pc.toNat ≤ 4098
  stack : ∀ k : Fin 16, s.stack[k].toNat ≤ 4096
  haltedIff : s.halted = true ↔ s.fcause ≠ .none
  recordClear : s.fcause = .none → s.fpc = 0 ∧ s.fir = 0 ∧ s.firValid = false ∧ s.faddr = 0
  faultPc : s.halted = true → s.fpc = s.pc
  noWord : s.halted = true → s.firValid = false → s.fcause = .memOutOfBounds ∧ s.fir = 0
  outOfBounds : s.fcause = .memOutOfBounds → 4096 ≤ s.faddr.toNat
  keyIndex : s.fcause = .keyIndexFault → 16 ≤ s.faddr.toNat ∧ s.faddr.toNat ≤ 255
  otherCauses : s.fcause ≠ .memOutOfBounds → s.fcause ≠ .keyIndexFault → s.faddr = 0
  overflowAtCapacity : s.fcause = .stackOverflow → s.sp.val = 16
  underflowAtEmpty : s.fcause = .stackUnderflow → s.sp.val = 0

/-- The word at `pc`, high byte at the lower address (20_memory R52). -/
def State.wordAtPc (s : State) : Word := wordOfBytes (s.mem.read s.pc.toNat) (s.mem.read (s.pc.toNat + 1))

/-- The state is about to run the instruction `i`: the core is running, both bytes at `pc` lie in memory
and they decode to `i`. -/
structure State.AtInstr (s : State) (i : Instr) : Prop where
  running : s.halted = false
  inMemory : s.pc.toNat ≤ 4094
  decodes : decodeWord s.wordAtPc = .ok i

end Sys2Proof.Machine

namespace Sys2Proof

open Sys2Proof.Machine

/-- The instruction `i`, run in the state `s`, is turned away by a fault: the conditions of 60_exceptions
R206 to R209, and there are no others (R210). -/
def Instr.faultsIn (i : Instr) (s : State) : Prop :=
  match i with
  | .call _ => s.sp.val = 16
  | .ret _ => s.sp.val = 0
  | .drw _ _ n => 0 < n.toNat ∧ 4095 < s.I.toNat + n.toNat - 1
  | .ldB _ => 4095 < s.I.toNat + 2
  | .ldMemVx x | .ldVxMem x => 4095 < s.I.toNat + x.toNat
  | .skp x _ | .sknp x _ => 15 < (s.v x).toNat
  | .cls _ | .jp _ | .seImm _ _ | .sneImm _ _ | .seReg _ _ _ | .ldImm _ _ | .addImm _ _ | .ldReg _ _
  | .orReg _ _ | .andReg _ _ | .xorReg _ _ | .addReg _ _ | .subReg _ _ | .shr _ _ | .subnReg _ _
  | .shl _ _ | .sneReg _ _ _ | .ldI _ | .jpV0 _ | .rnd _ _ | .ldVxDT _ | .ldVxK _ | .ldDTVx _
  | .ldSTVx _ | .addI _ | .ldF _ => False

/-- The parts of the state, but for `pc`, that an instruction which completes may change: its
destination, and what the spec says it writes besides (10_state R22, R32, 20_memory R50). The stores go
to the base `I` of the state the instruction runs in (48_memory_transfer R180). -/
def Instr.writes (i : Instr) (s : State) : List Part :=
  match i with
  | .cls _ => [.display]
  | .ret _ | .call _ => [.stack]
  | .jp _ | .jpV0 _ | .seImm _ _ | .sneImm _ _ | .seReg _ _ _ | .sneReg _ _ _ | .skp _ _ | .sknp _ _ => []
  | .ldImm x _ | .addImm x _ | .ldReg x _ | .orReg x _ | .andReg x _ | .xorReg x _ | .rnd x _
  | .ldVxDT x | .ldVxK x => [.v x]
  | .addReg x _ | .subReg x _ | .shr x _ | .subnReg x _ | .shl x _ => [.v x, .v flagReg]
  | .ldI _ | .addI _ | .ldF _ => [.index]
  | .drw _ _ _ => [.display, .v flagReg]
  | .ldDTVx _ => [.delay]
  | .ldSTVx _ => [.sound]
  | .ldB _ => [.memory s.base 3]
  | .ldMemVx x => [.memory s.base (x.toNat + 1)]
  | .ldVxMem x => (List.range (x.toNat + 1)).map fun k => .v (BitVec.ofNat 4 k)

/-- The table of 10_state R25: the `pc` an instruction that completes leaves. -/
def Instr.nextPc (i : Instr) (s : State) : Word :=
  let next := s.pc + 2
  let skip (c : Bool) := if c then s.pc + 4 else s.pc + 2
  match i with
  | .jp nnn | .call nnn => BitVec.ofNat 16 nnn.toNat
  | .ret _ => s.stack.toList.getD (s.sp.val - 1) 0
  | .jpV0 nnn => BitVec.ofNat 16 (nnn.toNat / 256 * 256 + (nnn.toNat % 256 + (s.v 0#4).toNat) % 256)
  | .seImm x kk => skip (decide (s.v x = kk))
  | .sneImm x kk => skip (decide (s.v x ≠ kk))
  | .seReg x y _ => skip (decide (s.v x = s.v y))
  | .sneReg x y _ => skip (decide (s.v x ≠ s.v y))
  | .skp x _ => skip (decide (s.input.keys.toList.getD (s.v x).toNat false = true))
  | .sknp x _ => skip (decide (s.input.keys.toList.getD (s.v x).toNat false = false))
  | .ldVxK _ => if ∃ k : Fin 16, s.input.keys[k] = true then next else s.pc
  | .cls _ | .ldImm _ _ | .addImm _ _ | .ldReg _ _ | .orReg _ _ | .andReg _ _ | .xorReg _ _
  | .addReg _ _ | .subReg _ _ | .shr _ _ | .subnReg _ _ | .shl _ _ | .ldI _ | .rnd _ _ | .drw _ _ _
  | .ldVxDT _ | .ldDTVx _ | .ldSTVx _ | .addI _ | .ldF _ | .ldB _ | .ldMemVx _ | .ldVxMem _ => next

end Sys2Proof

namespace Sys2Proof.Machine

/-- The cycle that starts in `s` ends in a fault: the fetch leaves memory, the word selects no
instruction, or the instruction is turned away (60_exceptions R205 to R210). -/
def State.cycleFaults (s : State) : Prop :=
  4095 ≤ s.pc.toNat ∨
    match decodeWord s.wordAtPc with
    | .error _ => True
    | .ok i => i.faultsIn s

/-- A safe step: the core was running and still runs. A halted core is never a successful final state
(60_exceptions R211). -/
def SafeStep (s t : State) : Prop := s.halted = false ∧ step s = .next t ∧ t.halted = false

end Sys2Proof.Machine
end

