-- ==== Sys2Proof/Certificates/Slice0/Obligations.lean ====
section
/-! DEFINITION. What is to be proved of the model: the numbered rules of the spec that say what an
instruction or the machine does, and the whole-machine rules. -/

open Sys2Proof Sys2Proof.Machine

/-! ## Encoding -/

/-- 30_encoding section 4: every instruction, with every operand and every unexamined bit at every value,
is decoded from its own word. (That a term holds the unexamined bits is the model's choice, log entry 9.) -/
def Obligations.DecodeOfEncodeIsTheInstruction : Prop :=
  ∀ i : Instr, decodeWord (encode i) = .ok i

/-- A word that decodes is the encoding of the term it decodes to, so that no bit of it is lost and no
two words share a term. This holds by the model's choice, log entry 9 (DESIGN CHOICE): a term keeps the
bits the decoder does not examine, so that the fault record can hold the fetched word (60_exceptions
R204). The spec itself calls an alias word and its canonical word the same instruction (30_encoding
R94); AliasWordsExecuteAsTheCanonicalWord says that of the model. -/
def Obligations.EncodeOfDecodeIsTheWord : Prop :=
  ∀ (w : Word) (i : Instr), decodeWord w = .ok i → encode i = w

/-- 30_encoding section 3 (the list of R93): the words that select no instruction are exactly those of
the four classes, each rejected under its own name. -/
def Obligations.UndefinedWordsAreThoseListed : Prop :=
  ∀ w : Word,
    (decodeWord w = .error .undefined0 ↔ Word.op w = 0x0 ∧ Word.kk w ∉ [0xE0, 0xEE]) ∧
    (decodeWord w = .error .undefined8 ↔
      Word.op w = 0x8 ∧ Word.n w ∈ [0x8, 0x9, 0xA, 0xB, 0xC, 0xD, 0xF]) ∧
    (decodeWord w = .error .undefinedE ↔ Word.op w = 0xE ∧ Word.n w ∉ [0x1, 0xE]) ∧
    (decodeWord w = .error .undefinedF ↔
      Word.op w = 0xF ∧ Word.kk w ∉ [0x07, 0x0A, 0x15, 0x18, 0x1E, 0x29, 0x33, 0x55, 0x65]) ∧
    decodeWord w ≠ .error .truncated

/-- 30_encoding section 4 (R95): a word `ir` selects a row of the opcode map, `ir AND mask = match`,
exactly when the two-level dispatch decodes it to an instruction of that row. -/
def Obligations.DispatchAgreesWithTheOpcodeMap : Prop :=
  ∀ (w : Word) (r : OpcodeRow), r ∈ opcodeMap →
    (w &&& r.mask = r.pattern ↔ ∃ i : Instr, decodeWord w = .ok i ∧ i.row = r)

/-- 30_encoding section 2 (R91): no word selects two rows of the opcode map. -/
def Obligations.NoWordSelectsTwoRows : Prop :=
  opcodeMap.Pairwise fun a b => ∀ w : Word, ¬(w &&& a.mask = a.pattern ∧ w &&& b.mask = b.pattern)

/-- A few words written out from the encodings of 30_encoding R95, alias words among them. -/
def Obligations.SampleWordsDecodeAsEncoded : Prop :=
  decodeWord 0x00E0 = .ok (.cls 0) ∧ decodeWord 0x01EE = .ok (.ret 1) ∧
  decodeWord 0x1234 = .ok (.jp 0x234) ∧ decodeWord 0x422B = .ok (.sneImm 2 0x2B) ∧
  decodeWord 0x5127 = .ok (.seReg 1 2 7) ∧ decodeWord 0x71FF = .ok (.addImm 1 0xFF) ∧
  decodeWord 0x8F17 = .ok (.subnReg 0xF 1) ∧ decodeWord 0xC30F = .ok (.rnd 3 0x0F) ∧
  decodeWord 0xD125 = .ok (.drw 1 2 5) ∧ decodeWord 0xE5A1 = .ok (.sknp 5 0xA) ∧
  decodeWord 0xF21E = .ok (.addI 2) ∧ decodeWord 0xF955 = .ok (.ldMemVx 9) ∧
  decodeWord 0x0000 = .error .undefined0 ∧ decodeWord 0xF01F = .error .undefinedF

/-- 30_encoding R94 (the spec's decision D13): where an instruction does not fault, it does exactly what
its canonical encoding does. -/
def Obligations.AliasWordsExecuteAsTheCanonicalWord : Prop :=
  ∀ (i : Instr) (s : State), ¬ i.faultsIn s →
    i.canonicalForm.isCanonical = true ∧ exec i s = exec i.canonicalForm s

/-! ## The cycle -/

/-- 40_execution_cycle section 1 (R110): when the two bytes at `pc` decode to `i`, a step is the handler
of `i`, then the timer tick unless the handler faulted; the input queue and the cycle count move on (the
model's own, log entry 1). -/
def Obligations.StepRunsTheDecodedInstruction : Prop :=
  ∀ (s : State) (i : Instr), s.AtInstr i →
    ∃ t, exec i s = .next t ∧
      step s = .next
        { t with
          DT := if t.halted = true ∨ t.DT = 0 then t.DT else t.DT - 1
          ST := if t.halted = true ∨ t.ST = 0 then t.ST else t.ST - 1
          inputs := t.inputs.tail
          cycle := t.cycle + 1 }

/-- 40_execution_cycle R115 (the spec's decision D8): a step of a halted core changes nothing. -/
def Obligations.HaltedStepChangesNothing : Prop :=
  ∀ s : State, s.halted = true → step s = .next s

/-- 40_execution_cycle R111, 60_exceptions R208 (the spec's decisions D4, D5, D7, D10): a fetch that leaves
memory is a fault without an instruction word. -/
def Obligations.FetchOutsideMemoryHalts : Prop :=
  ∀ s : State, s.halted = false → 4095 ≤ s.pc.toNat →
    ∃ t, step s = .next t.nextInput ∧
      FaultTaken .memOutOfBounds none (BitVec.ofNat 16 (max s.pc.toNat 4096)) s t

/-- 60_exceptions R205 (the spec's decisions D7, D10): a fetched word that selects no instruction is a
fault that records the word. -/
def Obligations.UndefinedWordHalts : Prop :=
  ∀ (s : State) (e : DecodeReject), s.halted = false → s.pc.toNat ≤ 4094 →
    decodeWord s.wordAtPc = .error e →
    ∃ t, step s = .next t.nextInput ∧ FaultTaken .decodeFault (some s.wordAtPc) 0 s t

/-- 40_execution_cycle R110, R120: a step always answers a next state, the halted one included. -/
def Obligations.StepAlwaysAnswersANextState : Prop :=
  ∀ s : State, ∃ t, step s = .next t

/-- 40_execution_cycle R118, 60_exceptions R203 (the spec's decision D7): whatever the fault, a faulting
cycle sets `halted` and the record and changes nothing else; the timers have not ticked. -/
def Obligations.FaultingCycleLeavesTheStateUntouched : Prop :=
  ∀ s t : State, s.halted = false → step s = .next t → t.halted = true →
    ∃ cause ir addr, cause ≠ .none ∧
      FaultTaken cause ir addr s { t with inputs := s.inputs, cycle := s.cycle }

/-- 60_exceptions R205 to R210, 70_reset_and_hazards R255: a cycle ends halted exactly when its fetch
leaves memory, its word is undefined, or its instruction meets its own fault condition (among them the
spec's decisions D3 to D7, D17, D18). -/
def Obligations.CycleFaultsExactlyWhenTheRulesSay : Prop :=
  ∀ s : State, s.halted = false → ∃ t, step s = .next t ∧ (t.halted = true ↔ s.cycleFaults)

/-- 60_exceptions R206 to R210 (decisions D6, D7, D17, D18): the handler of an instruction faults exactly
on its own condition. -/
def Obligations.InstructionFaultsExactlyWhenTheRulesSay : Prop :=
  ∀ (i : Instr) (s : State), s.halted = false →
    ∃ t, exec i s = .next t ∧ (t.halted = true ↔ i.faultsIn s)

/-- 40_execution_cycle R114, 49_timers_and_key_wait R190 (decision D20 for the waiting cycle): in a cycle
that completes, each timer that is not 0 falls by one after the handler, the handler's own load
included. -/
def Obligations.TimersFallByOneInACompletedCycle : Prop :=
  ∀ (s : State) (i : Instr), s.AtInstr i → ¬ i.faultsIn s →
    ∃ t, step s = .next t ∧
      t.DT.toNat = (match i with | .ldDTVx x => (s.v x).toNat | _ => s.DT.toNat) - 1 ∧
      t.ST.toNat = (match i with | .ldSTVx x => (s.v x).toNat | _ => s.ST.toNat) - 1

/-! ## Control flow -/

/-- R126. -/
def Obligations.JumpGoesExactlyToTheAddress : Prop :=
  ∀ (nnn : Addr12) (s : State),
    ∃ t, exec (.jp nnn) s = .next t ∧ t.pc.toNat = nnn.toNat ∧ OnlyChanged [] s t

/-- R127 (the spec's decisions D3: widths; D7, D30: the slots): the push and the jump, and the fault at
capacity. -/
def Obligations.CallPushesTheReturnAddress : Prop :=
  ∀ (nnn : Addr12) (s : State),
    (∀ h : s.sp.val < 16,
      ∃ t, exec (.call nnn) s = .next t ∧ t.pc.toNat = nnn.toNat ∧ t.sp.val = s.sp.val + 1 ∧
        t.stack[s.sp.val] = s.pc + 2 ∧
        (∀ k : Fin 16, k.val ≠ s.sp.val → t.stack[k] = s.stack[k]) ∧ OnlyChanged [.stack] s t) ∧
    (s.sp.val = 16 →
      ∃ t, exec (.call nnn) s = .next t ∧ t.halted = true ∧ t.fcause = .stackOverflow ∧
        t.pc = s.pc ∧ t.sp = s.sp ∧ t.stack = s.stack)

/-- R128 (the spec's decisions D7, D30): the pop and the jump without a further `+ 2`, and the fault on an
empty stack. -/
def Obligations.ReturnPopsTheReturnAddress : Prop :=
  ∀ (ign : Nibble) (s : State),
    (∀ h : 0 < s.sp.val,
      ∃ t, exec (.ret ign) s = .next t ∧ t.sp.val = s.sp.val - 1 ∧
        t.pc = s.stack[s.sp.val - 1] ∧ t.stack = s.stack ∧ OnlyChanged [.stack] s t) ∧
    (s.sp.val = 0 →
      ∃ t, exec (.ret ign) s = .next t ∧ t.halted = true ∧ t.fcause = .stackUnderflow ∧
        t.pc = s.pc ∧ t.sp = s.sp)

/-- 60_exceptions R206, R207 (decisions D7, D10): all that a stack fault leaves. -/
def Obligations.StackFaultsAreTaken : Prop :=
  (∀ (nnn : Addr12) (s : State), s.sp.val = 16 →
    ∃ t, exec (.call nnn) s = .next t ∧ FaultTaken .stackOverflow (some (encode (.call nnn))) 0 s t) ∧
  (∀ (ign : Nibble) (s : State), s.sp.val = 0 →
    ∃ t, exec (.ret ign) s = .next t ∧ FaultTaken .stackUnderflow (some (encode (.ret ign))) 0 s t)

/-- The property of 41_control_flow section 2: a call and, in any later state with the same stack, a
return come back to the instruction after the call with the stack pointer as it was. -/
def Obligations.CallThenReturnComesBack : Prop :=
  ∀ (nnn : Addr12) (ign : Nibble) (s t u : State), s.sp.val < 16 → exec (.call nnn) s = .next t →
    u.sp = t.sp → u.stack = t.stack →
    ∃ v, exec (.ret ign) u = .next v ∧ v.pc = s.pc + 2 ∧ v.sp = s.sp ∧ OnlyChanged [.stack] u v

/-- R129 (the spec's decision D21): `V[0]` is added into the low byte modulo 256 and the target stays in
the 256-byte page of `nnn`. -/
def Obligations.JumpV0StaysInThePage : Prop :=
  ∀ (nnn : Addr12) (s : State),
    ∃ t, exec (.jpV0 nnn) s = .next t ∧
      t.pc.toNat = nnn.toNat / 256 * 256 + (nnn.toNat % 256 + (s.v 0#4).toNat) % 256 ∧
      OnlyChanged [] s t

/-- R25 (with the spec's decisions D18, D20, D21 among its entries, and D7): the `pc` every instruction
leaves, and that a faulting instruction leaves `pc` alone. -/
def Obligations.ProgramCounterFollowsTheTable : Prop :=
  ∀ (i : Instr) (s : State),
    (¬ i.faultsIn s → ∃ t, exec i s = .next t ∧ t.pc = i.nextPc s) ∧
    (i.faultsIn s → ∃ t, exec i s = .next t ∧ t.pc = s.pc)

/-! ## Skips -/

/-- R136, R137, R138, R139: the four compares, for every register, immediate and unexamined nibble. -/
def Obligations.CompareSkipsByFourOrTwo : Prop :=
  ∀ (x y : RegIdx) (kk : Byte) (ign : Nibble) (s : State),
    (∃ t, exec (.seImm x kk) s = .next t ∧
      (s.v x = kk → t.pc = s.pc + 4) ∧ (s.v x ≠ kk → t.pc = s.pc + 2) ∧ OnlyChanged [] s t) ∧
    (∃ t, exec (.sneImm x kk) s = .next t ∧
      (s.v x ≠ kk → t.pc = s.pc + 4) ∧ (s.v x = kk → t.pc = s.pc + 2) ∧ OnlyChanged [] s t) ∧
    (∃ t, exec (.seReg x y ign) s = .next t ∧
      (s.v x = s.v y → t.pc = s.pc + 4) ∧ (s.v x ≠ s.v y → t.pc = s.pc + 2) ∧ OnlyChanged [] s t) ∧
    (∃ t, exec (.sneReg x y ign) s = .next t ∧
      (s.v x ≠ s.v y → t.pc = s.pc + 4) ∧ (s.v x = s.v y → t.pc = s.pc + 2) ∧ OnlyChanged [] s t)

/-- R140, R141 for an existing key (key vectors are the model's inputs, log entry 1). -/
def Obligations.KeySkipsFollowTheKey : Prop :=
  ∀ (x : RegIdx) (ign : Nibble) (s : State) (h : (s.v x).toNat < 16),
    (∃ t, exec (.skp x ign) s = .next t ∧
      (s.input.keys[(s.v x).toNat] = true → t.pc = s.pc + 4) ∧
      (s.input.keys[(s.v x).toNat] = false → t.pc = s.pc + 2) ∧ OnlyChanged [] s t) ∧
    (∃ t, exec (.sknp x ign) s = .next t ∧
      (s.input.keys[(s.v x).toNat] = false → t.pc = s.pc + 4) ∧
      (s.input.keys[(s.v x).toNat] = true → t.pc = s.pc + 2) ∧ OnlyChanged [] s t)

/-- 60_exceptions R209 (the spec's decision D18): a key number above 15 is a fault that records it. -/
def Obligations.KeyIndexAboveFifteenFaults : Prop :=
  ∀ (x : RegIdx) (ign : Nibble) (s : State), 15 < (s.v x).toNat →
    (∃ t, exec (.skp x ign) s = .next t ∧
      FaultTaken .keyIndexFault (some (encode (.skp x ign))) (BitVec.ofNat 16 (s.v x).toNat) s t) ∧
    (∃ t, exec (.sknp x ign) s = .next t ∧
      FaultTaken .keyIndexFault (some (encode (.sknp x ign))) (BitVec.ofNat 16 (s.v x).toNat) s t)

/-! ## Registers -/

/-- R145, R146: no flag is updated, and with `x = 0xF` the destination is `VF` itself. -/
def Obligations.ImmediateLoadAndAdd : Prop :=
  ∀ (x : RegIdx) (kk : Byte) (s : State),
    (∃ t, exec (.ldImm x kk) s = .next t ∧ t.v x = kk ∧ t.pc = s.pc + 2 ∧ OnlyChanged [.v x] s t) ∧
    (∃ t, exec (.addImm x kk) s = .next t ∧ (t.v x).toNat = ((s.v x).toNat + kk.toNat) % 256 ∧
      t.pc = s.pc + 2 ∧ OnlyChanged [.v x] s t)

/-- R151. -/
def Obligations.RegisterCopy : Prop :=
  ∀ (x y : RegIdx) (s : State),
    ∃ t, exec (.ldReg x y) s = .next t ∧ t.v x = s.v y ∧ t.pc = s.pc + 2 ∧ OnlyChanged [.v x] s t

/-- R152, R153, R154 (the spec's decision D12: `VF` keeps its value unless it is the destination). -/
def Obligations.LogicalOperationsWorkBitByBit : Prop :=
  ∀ (x y : RegIdx) (s : State),
    (∃ t, exec (.orReg x y) s = .next t ∧
      (∀ b, (t.v x).getLsbD b = ((s.v x).getLsbD b || (s.v y).getLsbD b)) ∧
      t.pc = s.pc + 2 ∧ OnlyChanged [.v x] s t) ∧
    (∃ t, exec (.andReg x y) s = .next t ∧
      (∀ b, (t.v x).getLsbD b = ((s.v x).getLsbD b && (s.v y).getLsbD b)) ∧
      t.pc = s.pc + 2 ∧ OnlyChanged [.v x] s t) ∧
    (∃ t, exec (.xorReg x y) s = .next t ∧
      (∀ b, (t.v x).getLsbD b = ((s.v x).getLsbD b ^^ (s.v y).getLsbD b)) ∧
      t.pc = s.pc + 2 ∧ OnlyChanged [.v x] s t)

/-- R155 (with `x = 0xF` the flag remains: the spec's decision D11). -/
def Obligations.AddDeliversSumAndCarry : Prop :=
  ∀ (x y : RegIdx) (s : State),
    ∃ t, exec (.addReg x y) s = .next t ∧
      (x ≠ flagReg → (t.v x).toNat = ((s.v x).toNat + (s.v y).toNat) % 256) ∧
      (t.v flagReg).toNat = (if (s.v x).toNat + (s.v y).toNat > 255 then 1 else 0) ∧
      t.pc = s.pc + 2 ∧ OnlyChanged [.v x, .v flagReg] s t

/-- R156, R158 (with `x = 0xF` the flag remains: the spec's decision D11). The differences are stated on
integers. -/
def Obligations.SubtractDeliversDifferenceAndNoBorrow : Prop :=
  ∀ (x y : RegIdx) (s : State),
    (∃ t, exec (.subReg x y) s = .next t ∧
      (x ≠ flagReg → ((t.v x).toNat : Int) = (((s.v x).toNat : Int) - (s.v y).toNat) % 256) ∧
      (t.v flagReg).toNat = (if (s.v x).toNat ≥ (s.v y).toNat then 1 else 0) ∧
      t.pc = s.pc + 2 ∧ OnlyChanged [.v x, .v flagReg] s t) ∧
    (∃ t, exec (.subnReg x y) s = .next t ∧
      (x ≠ flagReg → ((t.v x).toNat : Int) = (((s.v y).toNat : Int) - (s.v x).toNat) % 256) ∧
      (t.v flagReg).toNat = (if (s.v y).toNat ≥ (s.v x).toNat then 1 else 0) ∧
      t.pc = s.pc + 2 ∧ OnlyChanged [.v x, .v flagReg] s t)

/-- R157, R159 (with `x = 0xF` the flag remains: the spec's decision D11), whatever the ignored nibble. -/
def Obligations.ShiftsMoveOneBitIntoTheFlag : Prop :=
  ∀ (x : RegIdx) (ign : Nibble) (s : State),
    (∃ t, exec (.shr x ign) s = .next t ∧
      (x ≠ flagReg → (t.v x).toNat = (s.v x).toNat / 2) ∧
      (t.v flagReg).toNat = (s.v x).toNat % 2 ∧
      t.pc = s.pc + 2 ∧ OnlyChanged [.v x, .v flagReg] s t) ∧
    (∃ t, exec (.shl x ign) s = .next t ∧
      (x ≠ flagReg → (t.v x).toNat = (s.v x).toNat * 2 % 256) ∧
      (t.v flagReg).toNat = (s.v x).toNat / 128 ∧
      t.pc = s.pc + 2 ∧ OnlyChanged [.v x, .v flagReg] s t)

/-- R165. -/
def Obligations.LoadIndexImmediate : Prop :=
  ∀ (nnn : Addr12) (s : State),
    ∃ t, exec (.ldI nnn) s = .next t ∧ t.I.toNat = nnn.toNat ∧ t.pc = s.pc + 2 ∧
      OnlyChanged [.index] s t

/-- R166, R167 (the spec's decisions D12: no flag; D19: the glyph number is not masked). -/
def Obligations.IndexAddAndGlyphAddress : Prop :=
  ∀ (x : RegIdx) (s : State),
    (∃ t, exec (.addI x) s = .next t ∧ t.I.toNat = (s.I.toNat + (s.v x).toNat) % 65536 ∧
      t.pc = s.pc + 2 ∧ OnlyChanged [.index] s t) ∧
    (∃ t, exec (.ldF x) s = .next t ∧ t.I.toNat = 5 * (s.v x).toNat ∧ t.pc = s.pc + 2 ∧
      OnlyChanged [.index] s t)

/-- R171: the random byte of the cycle (the model's input, log entry 1) under the mask, bit by bit. -/
def Obligations.RandomByteUnderMask : Prop :=
  ∀ (x : RegIdx) (kk : Byte) (s : State),
    ∃ t, exec (.rnd x kk) s = .next t ∧
      (∀ b, (t.v x).getLsbD b = (s.input.rnd.getLsbD b && kk.getLsbD b)) ∧
      t.pc = s.pc + 2 ∧ OnlyChanged [.v x] s t

/-! ## Display -/

/-- R175 (the spec's decision D12: `VF` is not changed). -/
def Obligations.ClearScreenClearsEveryPixel : Prop :=
  ∀ (ign : Nibble) (s : State),
    ∃ t, exec (.cls ign) s = .next t ∧ (∀ px py, t.fb.pixel px py = false) ∧ t.pc = s.pc + 2 ∧
      OnlyChanged [.display] s t

/-- R174, R176 (the spec's decisions D11, D16, D17): every pixel of the grid is the old one XOR the sprite
bit that falls on it, and `VF` says whether a 1 bit fell on a pixel that was 1. -/
def Obligations.DrawXorsTheClippedSprite : Prop :=
  ∀ (x y : RegIdx) (n : Nibble) (s : State), n.toNat = 0 ∨ s.I.toNat + n.toNat ≤ 4096 →
    ∃ t, exec (.drw x y n) s = .next t ∧
      (∀ px py, px ≤ 63 → py ≤ 31 →
        t.fb.pixel px py =
          (s.fb.pixel px py ^^
            spriteBit (s.spriteRows n.toNat) ((s.v x).toNat % 64) ((s.v y).toNat % 32) px py)) ∧
      ((∃ px py, px ≤ 63 ∧ py ≤ 31 ∧ s.fb.pixel px py = true ∧
          spriteBit (s.spriteRows n.toNat) ((s.v x).toNat % 64) ((s.v y).toNat % 32) px py = true) →
        t.v flagReg = 1) ∧
      ((∀ px py, px ≤ 63 → py ≤ 31 → s.fb.pixel px py = true →
          spriteBit (s.spriteRows n.toNat) ((s.v x).toNat % 64) ((s.v y).toNat % 32) px py = false) →
        t.v flagReg = 0) ∧
      t.pc = s.pc + 2 ∧ OnlyChanged [.display, .v flagReg] s t

/-- 47_display section 2: drawing the same sprite again at the same place restores the framebuffer. On a
cleared framebuffer the second draw reports a collision if the sprite has a visible set bit (on another
framebuffer it need not, although R174 says so without that condition: log entry 17). -/
def Obligations.DrawingTwiceRestoresTheScreen : Prop :=
  ∀ (x y : RegIdx) (n : Nibble) (s t u : State), n.toNat = 0 ∨ s.I.toNat + n.toNat ≤ 4096 →
    exec (.drw x y n) s = .next t →
    u.fb = t.fb → u.I = s.I → u.v x = s.v x → u.v y = s.v y → (∀ a, u.mem.read a = s.mem.read a) →
    ∃ v, exec (.drw x y n) u = .next v ∧
      (∀ px py, px ≤ 63 → py ≤ 31 → v.fb.pixel px py = s.fb.pixel px py) ∧
      ((∀ px py, px ≤ 63 → py ≤ 31 → s.fb.pixel px py = false) →
        (∃ px py, px ≤ 63 ∧ py ≤ 31 ∧
          spriteBit (s.spriteRows n.toNat) ((s.v x).toNat % 64) ((s.v y).toNat % 32) px py = true) →
        v.v flagReg = 1)

/-! ## Memory -/

/-- R181: the three digits, every other byte unchanged, and nothing written when a byte is out of
bounds. `wf` is the memory's canonical form, which every step keeps. -/
def Obligations.BcdStoresTheThreeDigits : Prop :=
  ∀ (x : RegIdx) (s : State),
    (s.mem.wf = true → s.I.toNat + 2 ≤ 4095 →
      ∃ t, exec (.ldB x) s = .next t ∧
        (t.mem.read s.I.toNat).toNat = (s.v x).toNat / 100 ∧
        (t.mem.read (s.I.toNat + 1)).toNat = (s.v x).toNat / 10 % 10 ∧
        (t.mem.read (s.I.toNat + 2)).toNat = (s.v x).toNat % 10 ∧
        t.pc = s.pc + 2 ∧ OnlyChanged [.memory s.base 3] s t) ∧
    (s.I.toNat + 2 > 4095 →
      ∃ t, exec (.ldB x) s = .next t ∧ t.halted = true ∧ t.fcause = .memOutOfBounds ∧
        t.faddr.toNat = max s.I.toNat 4096 ∧ (∀ a, t.mem.read a = s.mem.read a))

/-- R182 (the spec's decision D32: `VF` is dumped as a plain byte). -/
def Obligations.DumpStoresTheFirstRegisters : Prop :=
  ∀ (x : RegIdx) (s : State), s.mem.wf = true → s.I.toNat + x.toNat ≤ 4095 →
    ∃ t, exec (.ldMemVx x) s = .next t ∧
      (∀ k : RegIdx, k.toNat ≤ x.toNat → t.mem.read (s.I.toNat + k.toNat) = s.v k) ∧
      t.pc = s.pc + 2 ∧ OnlyChanged [.memory s.base (x.toNat + 1)] s t

/-- R183 (the spec's decisions D29, D32): the first registers are loaded, every other is unchanged, and
none is changed when a byte is out of bounds. -/
def Obligations.LoadFillsTheFirstRegisters : Prop :=
  ∀ (x : RegIdx) (s : State),
    (s.I.toNat + x.toNat ≤ 4095 →
      ∃ t, exec (.ldVxMem x) s = .next t ∧
        (∀ k : RegIdx, k.toNat ≤ x.toNat → t.v k = s.mem.read (s.I.toNat + k.toNat)) ∧
        (∀ k : RegIdx, x.toNat < k.toNat → t.v k = s.v k) ∧ t.pc = s.pc + 2 ∧
        OnlyChanged ((Instr.ldVxMem x).writes s) s t) ∧
    (s.I.toNat + x.toNat > 4095 →
      ∃ t, exec (.ldVxMem x) s = .next t ∧ t.halted = true ∧ t.fcause = .memOutOfBounds ∧
        t.faddr.toNat = max s.I.toNat 4096 ∧ ∀ k : RegIdx, t.v k = s.v k)

/-- The property of 48_memory_transfer section 2: a dump and, in any later state with the same memory and
`I`, a load of the same range give the dumped registers back. -/
def Obligations.DumpThenLoadRoundTrips : Prop :=
  ∀ (x : RegIdx) (s t u : State), s.mem.wf = true → s.I.toNat + x.toNat ≤ 4095 →
    exec (.ldMemVx x) s = .next t → u.I = s.I → (∀ a, u.mem.read a = t.mem.read a) →
    ∃ v, exec (.ldVxMem x) u = .next v ∧ ∀ k : RegIdx, k.toNat ≤ x.toNat → v.v k = s.v k

/-- 60_exceptions R208, 20_memory R57 (the spec's decisions D6, D7, D10, D29): each of the four memory
instructions with a byte above 4095 faults, having moved nothing, and records the lowest such address. -/
def Obligations.AccessOutsideMemoryFaults : Prop :=
  ∀ (i : Instr) (s : State), i.faultsIn s →
    (match i with
      | .drw _ _ _ | .ldB _ | .ldMemVx _ | .ldVxMem _ =>
        ∃ t, exec i s = .next t ∧
          FaultTaken .memOutOfBounds (some (encode i)) (BitVec.ofNat 16 (max s.I.toNat 4096)) s t
      | _ => True)

/-- 20_memory section 5 (R62): two bytes stored by a register dump are the very word the next fetch at
their address reads. -/
def Obligations.FetchSeesTheStoredBytes : Prop :=
  ∀ (x k : RegIdx) (s t u : State), s.mem.wf = true → s.I.toNat + x.toNat ≤ 4095 →
    exec (.ldMemVx x) s = .next t → k.toNat < x.toNat →
    u.mem = t.mem → u.pc.toNat = s.I.toNat + k.toNat →
    u.fetch = .ok (wordOfBytes (s.v k) (s.v (k + 1)))

/-! ## Timers and keys -/

/-- R187, R188, R189: the transfers, in the handler and, with the tick of the same cycle, at its end. -/
def Obligations.TimerTransfers : Prop :=
  ∀ (x : RegIdx) (s : State),
    (∃ t, exec (.ldVxDT x) s = .next t ∧ t.v x = s.DT ∧ t.pc = s.pc + 2 ∧ OnlyChanged [.v x] s t) ∧
    (∃ t, exec (.ldDTVx x) s = .next t ∧ t.DT = s.v x ∧ t.pc = s.pc + 2 ∧ OnlyChanged [.delay] s t) ∧
    (∃ t, exec (.ldSTVx x) s = .next t ∧ t.ST = s.v x ∧ t.pc = s.pc + 2 ∧ OnlyChanged [.sound] s t) ∧
    (s.AtInstr (.ldVxDT x) →
      ∃ t, step s = .next t ∧ t.v x = s.DT ∧ t.DT.toNat = s.DT.toNat - 1) ∧
    (s.AtInstr (.ldDTVx x) → ∃ t, step s = .next t ∧ t.DT.toNat = (s.v x).toNat - 1) ∧
    (s.AtInstr (.ldSTVx x) → ∃ t, step s = .next t ∧ t.ST.toNat = (s.v x).toNat - 1)

/-- R192: with a key down the least one is taken; with none down nothing changes. -/
def Obligations.KeyWaitTakesTheLeastKey : Prop :=
  ∀ (x : RegIdx) (s : State),
    (∀ k : Fin 16, s.input.keys[k] = true → (∀ j : Fin 16, j < k → s.input.keys[j] = false) →
      ∃ t, exec (.ldVxK x) s = .next t ∧ (t.v x).toNat = k.val ∧ t.pc = s.pc + 2 ∧
        OnlyChanged [.v x] s t) ∧
    ((∀ k : Fin 16, s.input.keys[k] = false) → exec (.ldVxK x) s = .next s)

/-- R192, 40_execution_cycle R114 (the spec's decision D20): a waiting cycle leaves `pc` and everything
else, but the timers tick. -/
def Obligations.WaitingCycleTicksTheTimers : Prop :=
  ∀ (x : RegIdx) (s : State), s.AtInstr (.ldVxK x) → (∀ k : Fin 16, s.input.keys[k] = false) →
    ∃ t, step s = .next t ∧ t.pc = s.pc ∧ t.DT.toNat = s.DT.toNat - 1 ∧ t.ST.toNat = s.ST.toNat - 1 ∧
      OnlyChanged [.delay, .sound] s { t with inputs := s.inputs, cycle := s.cycle }

/-! ## The whole machine -/

/-- The frame of every instruction (10_state R22 with decision D12, R25, R32; 20_memory R50): one that
completes changes only what the spec says it writes, one that faults only the record. -/
def Obligations.EveryInstructionKeepsItsFrame : Prop :=
  ∀ (i : Instr) (s : State),
    ∃ t, exec i s = .next t ∧
      (¬ i.faultsIn s → OnlyChanged (i.writes s) s t) ∧ (i.faultsIn s → OnlyChanged [.record] s t)

/-- 40_execution_cycle R120: `rnd` matters to `RND` alone and `keys` to `SKP`, `SKNP` and `LD Vx, K`
alone; for every other instruction the inputs of the cycle make no difference. -/
def Obligations.InputsMatterToFourInstructionsOnly : Prop :=
  ∀ (i : Instr) (s t : State) (l : List HostInput) (c : Nat),
    let s' := { s with inputs := l, cycle := c }
    (match i with
      | .rnd _ _ => s'.input.rnd = s.input.rnd
      | .skp _ _ | .sknp _ _ | .ldVxK _ => s'.input.keys = s.input.keys
      | _ => True) →
    exec i s = .next t → exec i s' = .next { t with inputs := l, cycle := c }

/-- Every step keeps the invariant of the machine: the canonical form of memory (log entry 5), `pc` at
most 4098 (10_state R24), the legal values of the stack slots and of the fault record (R31, R32). -/
def Obligations.StepKeepsTheInvariant : Prop :=
  ∀ s t : State, s.Inv → step s = .next t → t.Inv

/-- The invariant holds right after reset. -/
def Obligations.ResetMeetsTheInvariant : Prop := State.reset.Inv

/-- 10_state R34, 70_reset_and_hazards R240 (decision D2 for every zero): what `Reset(rom)` leaves. -/
def Obligations.ResetPlacesTheRomAndTheFont : Prop :=
  ∀ rom : List Byte, rom.length ≤ 3584 →
    ∃ s, State.resetWith rom = .next s ∧ s.pc = 0x200 ∧
      (∀ k (h : k < rom.length), s.mem.read (0x200 + k) = rom[k]) ∧
      (∀ a (h : a < font.length), s.mem.read a = font[a]) ∧
      (∀ a, 0x50 ≤ a → a < 0x200 ∨ 0x200 + rom.length ≤ a → s.mem.read a = 0) ∧
      (∀ x, s.v x = 0) ∧ s.I = 0 ∧ s.sp = 0 ∧ (∀ k : Fin 16, s.stack[k] = 0) ∧ s.DT = 0 ∧ s.ST = 0 ∧
      (∀ px py, s.fb.pixel px py = false) ∧ s.halted = false ∧ s.fcause = .none ∧ s.fpc = 0 ∧
      s.fir = 0 ∧ s.firValid = false ∧ s.faddr = 0 ∧ s.Inv

/-- 70_reset_and_hazards R243 (the spec's decision D23): an image of more than 3584 bytes is refused. -/
def Obligations.ResetRefusesALongRom : Prop :=
  ∀ rom : List Byte, 3584 < rom.length → State.resetWith rom = .refused .romTooLong

/-- 70_reset_and_hazards R242: after `Reset(rom)` the first word is the image's first two bytes, a byte the
image does not have being 0. The first step runs the instruction they decode to (the handler and then the
tick, as StepRunsTheDecodedInstruction says of every step; the input queue and the cycle count are the
model's own, log entry 1), and is a DecodeFault where they decode to none, as with the empty image (the
fault's form: the spec's decisions D7, D10). -/
def Obligations.FirstStepRunsTheFirstRomWord : Prop :=
  ∀ (rom : List Byte) (s : State), State.resetWith rom = .next s →
    s.pc = 0x200 ∧ s.wordAtPc = wordOfBytes (rom.getD 0 0) (rom.getD 1 0) ∧
    (∀ i : Instr, decodeWord (wordOfBytes (rom.getD 0 0) (rom.getD 1 0)) = .ok i →
      s.AtInstr i ∧
      ∃ t, exec i s = .next t ∧
        step s = .next
          { t with
            DT := if t.halted = true ∨ t.DT = 0 then t.DT else t.DT - 1
            ST := if t.halted = true ∨ t.ST = 0 then t.ST else t.ST - 1
            inputs := t.inputs.tail
            cycle := t.cycle + 1 }) ∧
    (∀ e : DecodeReject, decodeWord (wordOfBytes (rom.getD 0 0) (rom.getD 1 0)) = .error e →
      ∃ t, step s = .next t.nextInput ∧
        FaultTaken .decodeFault (some (wordOfBytes (rom.getD 0 0) (rom.getD 1 0))) 0 s t)

/-- 00_scope R16, 41_control_flow R126: at a jump to its own address a step changes the timers alone. -/
def Obligations.SelfJumpIdles : Prop :=
  ∀ (nnn : Addr12) (s : State), s.AtInstr (.jp nnn) → s.pc.toNat = nnn.toNat →
    ∃ t, step s = .next t ∧ t.pc = s.pc ∧ t.AtInstr (.jp nnn) ∧
      OnlyChanged [.delay, .sound] s { t with inputs := s.inputs, cycle := s.cycle }
end

