-- ==== Sys2Proof/Laws/Memory.lean ====
section
/-! SUPPORT. Memory: read after write, and every memory operation keeps the canonical form. -/

namespace Sys2Proof.Machine

theorem Memory.read_write_other (m : Memory) {a b : Nat} (v : Byte) (h : b ≠ a) :
    (Memory.write m a v).read b = Memory.read m b := by
  induction m with
  | nil => simp only [Memory.write]; split <;> simp [Memory.read, h]
  | cons c rest ih =>
    obtain ⟨k, w⟩ := c
    simp only [Memory.write]
    split
    · split <;> simp [Memory.read, h]
    · split
      · next hk => subst hk; split <;> simp [Memory.read, h]
      · simp [Memory.read, ih]

theorem Memory.wfFrom_mono {lo lo' : Nat} {m : Memory} (hle : lo' ≤ lo) (h : Memory.wfFrom lo m = true) :
    Memory.wfFrom lo' m = true := by
  cases m with
  | nil => rfl
  | cons c rest =>
    obtain ⟨k, w⟩ := c
    simp only [Memory.wfFrom, Bool.and_eq_true, decide_eq_true_eq] at h ⊢
    exact ⟨⟨⟨by omega, h.1.1.2⟩, h.1.2⟩, h.2⟩

/-- Below the addresses a memory lists, it reads as reset left it. -/
theorem Memory.read_below {lo a : Nat} {m : Memory} (h : Memory.wfFrom lo m = true) (ha : a < lo) :
    Memory.read m a = resetByte a := by
  induction m generalizing lo with
  | nil => rfl
  | cons c rest ih =>
    obtain ⟨k, w⟩ := c
    simp only [Memory.wfFrom, Bool.and_eq_true, decide_eq_true_eq] at h
    have hk : a ≠ k := by omega
    simp only [Memory.read, hk, if_false]
    exact ih h.2 (by omega)

theorem Memory.read_write_same_from {lo : Nat} {m : Memory} (a : Nat) (v : Byte)
    (h : Memory.wfFrom lo m = true) : (Memory.write m a v).read a = v := by
  induction m generalizing lo with
  | nil => simp only [Memory.write]; split <;> simp_all [Memory.read]
  | cons c rest ih =>
    obtain ⟨k, w⟩ := c
    simp only [Memory.wfFrom, Bool.and_eq_true, decide_eq_true_eq] at h
    simp only [Memory.write]
    split
    · next hlt =>
      split
      · next hv =>
        have hk : a ≠ k := by omega
        simp only [Memory.read, hk, if_false, hv]
        exact Memory.read_below h.2 (by omega)
      · simp [Memory.read]
    · split
      · next hk =>
        subst hk
        split
        · next hv => rw [hv]; exact Memory.read_below h.2 (by omega)
        · simp [Memory.read]
      · next hk =>
        simp only [Memory.read, hk, if_false]
        exact ih h.2

/-- A read after a write to the same address gives the value written. -/
theorem Memory.read_write_same {m : Memory} (a : Nat) (v : Byte) (h : m.wf = true) :
    (Memory.write m a v).read a = v := Memory.read_write_same_from a v h

theorem Memory.wfFrom_write {lo : Nat} {m : Memory} {a : Nat} (v : Byte)
    (h : Memory.wfFrom lo m = true) (hlo : lo ≤ a) (ha : a < 4096) :
    Memory.wfFrom lo (Memory.write m a v) = true := by
  induction m generalizing lo with
  | nil => simp only [Memory.write]; split <;> simp_all [Memory.wfFrom]
  | cons c rest ih =>
    obtain ⟨k, w⟩ := c
    have h0 := h
    simp only [Memory.wfFrom, Bool.and_eq_true, decide_eq_true_eq] at h
    simp only [Memory.write]
    split
    · split
      · exact h0
      · simp_all [Memory.wfFrom]
    · split
      · next hk =>
        subst hk
        split
        · exact Memory.wfFrom_mono (by omega) h.2
        · simp_all [Memory.wfFrom]
      · simp only [Memory.wfFrom, Bool.and_eq_true, decide_eq_true_eq]
        exact ⟨h.1, ih h.2 (by omega)⟩

/-- A write below 4096 keeps the canonical form. -/
theorem Memory.wf_write {m : Memory} {a : Nat} (v : Byte) (h : m.wf = true) (ha : a < 4096) :
    (Memory.write m a v).wf = true := Memory.wfFrom_write v h (Nat.zero_le a) ha

theorem Memory.wf_writeBytes {m : Memory} {a : Nat} {vs : List Byte} (h : m.wf = true)
    (ha : a + vs.length ≤ 4096) : (Memory.writeBytes m a vs).wf = true := by
  induction vs generalizing m a with
  | nil => exact h
  | cons v vs ih =>
    simp only [List.length_cons] at ha
    exact ih (Memory.wf_write v h (by omega)) (by omega)

theorem Memory.read_writeBytes_outside (m : Memory) {a b : Nat} (vs : List Byte)
    (h : b < a ∨ a + vs.length ≤ b) : (Memory.writeBytes m a vs).read b = Memory.read m b := by
  induction vs generalizing m a with
  | nil => rfl
  | cons v vs ih =>
    simp only [List.length_cons] at h
    show (Memory.writeBytes (Memory.write m a v) (a + 1) vs).read b = _
    rw [ih (Memory.write m a v) (by omega), Memory.read_write_other m v (by omega)]

theorem Memory.read_writeBytes_inside {m : Memory} {a k : Nat} {vs : List Byte} (h : m.wf = true)
    (ha : a + vs.length ≤ 4096) (hk : k < vs.length) :
    (Memory.writeBytes m a vs).read (a + k) = vs[k] := by
  induction vs generalizing m a k with
  | nil => simp at hk
  | cons v vs ih =>
    simp only [List.length_cons] at ha hk
    show (Memory.writeBytes (Memory.write m a v) (a + 1) vs).read (a + k) = _
    cases k with
    | zero =>
      rw [Memory.read_writeBytes_outside _ vs (by omega)]
      exact Memory.read_write_same a v h
    | succ j =>
      have := ih (m := Memory.write m a v) (a := a + 1) (k := j) (Memory.wf_write v h (by omega))
        (by omega) (by omega)
      rw [show a + (j + 1) = a + 1 + j by omega, this]; simp

theorem Memory.ext_from {lo : Nat} {m m' : Memory} (h : Memory.wfFrom lo m = true)
    (h' : Memory.wfFrom lo m' = true) (hr : ∀ a, m.read a = m'.read a) : m = m' := by
  induction m generalizing lo m' with
  | nil =>
    cases m' with
    | nil => rfl
    | cons c rest =>
      obtain ⟨k, w⟩ := c
      have := hr k
      simp only [Memory.wfFrom, Bool.and_eq_true, decide_eq_true_eq] at h'
      simp only [Memory.read, if_true] at this
      simp [← this] at h'
  | cons c rest ih =>
    obtain ⟨k, w⟩ := c
    have h0 := h
    simp only [Memory.wfFrom, Bool.and_eq_true, decide_eq_true_eq] at h
    cases m' with
    | nil =>
      have := hr k
      simp only [Memory.read, if_true] at this
      simp [this] at h
    | cons c' rest' =>
      obtain ⟨k', w'⟩ := c'
      have h0' := h'
      simp only [Memory.wfFrom, Bool.and_eq_true, decide_eq_true_eq] at h'
      have hkk : k = k' := by
        rcases Nat.lt_trichotomy k k' with hlt | heq | hgt
        · have := hr k
          have hne : k ≠ k' := by omega
          simp only [Memory.read, if_true, hne, if_false] at this
          rw [Memory.read_below h'.2 (by omega)] at this
          simp [this] at h
        · exact heq
        · have := hr k'
          have hne : k' ≠ k := by omega
          simp only [Memory.read, if_true, hne, if_false] at this
          rw [Memory.read_below h.2 (by omega)] at this
          simp [← this] at h'
      subst hkk
      have hw := hr k
      simp only [Memory.read, if_true] at hw
      subst hw
      have hrest : rest = rest' := by
        refine ih h.2 h'.2 fun a => ?_
        by_cases hak : a = k
        · subst hak
          rw [Memory.read_below h.2 (by omega), Memory.read_below h'.2 (by omega)]
        · have := hr a
          simpa only [Memory.read, hak, if_false] using this
      rw [hrest]

/-- Equal memories are equal data: two memories in canonical form that read alike are the same list. -/
theorem Memory.ext {m m' : Memory} (h : m.wf = true) (h' : m'.wf = true)
    (hr : ∀ a, m.read a = m'.read a) : m = m' := Memory.ext_from h h' hr

@[simp] theorem inRange_iff (addr n : Nat) : inRange addr n = true ↔ n = 0 ∨ addr + n ≤ 4096 := by
  simp [inRange]

/-- Everything a range-checked read can do. -/
theorem Memory.readRange_cases (m : Memory) (addr n : Nat) :
    ((n = 0 ∨ addr + n ≤ 4096) ∧
      m.readRange addr n = .ok ((List.range n).map fun k => m.read (addr + k))) ∨
    ((0 < n ∧ 4096 < addr + n) ∧ m.readRange addr n = .error (max addr 4096)) := by
  by_cases h : n = 0 ∨ addr + n ≤ 4096
  · exact .inl ⟨h, if_pos ((inRange_iff addr n).mpr h)⟩
  · exact .inr ⟨by omega, if_neg (mt (inRange_iff addr n).mp h)⟩

/-- Everything a range-checked write can do. -/
theorem Memory.writeRange_cases (m : Memory) (addr : Nat) (vs : List Byte) :
    ((vs.length = 0 ∨ addr + vs.length ≤ 4096) ∧ m.writeRange addr vs = .ok (m.writeBytes addr vs)) ∨
    ((0 < vs.length ∧ 4096 < addr + vs.length) ∧ m.writeRange addr vs = .error (max addr 4096)) := by
  by_cases h : vs.length = 0 ∨ addr + vs.length ≤ 4096
  · exact .inl ⟨h, if_pos ((inRange_iff addr _).mpr h)⟩
  · exact .inr ⟨by omega, if_neg (mt (inRange_iff addr _).mp h)⟩

/-- A range-checked write that succeeds keeps the canonical form. -/
theorem Memory.wf_writeRange {m m' : Memory} {addr : Nat} {vs : List Byte} (h : m.wf = true)
    (e : m.writeRange addr vs = .ok m') : m'.wf = true := by
  rcases Memory.writeRange_cases m addr vs with ⟨hr, e'⟩ | ⟨_, e'⟩
  · rw [e'] at e
    cases e
    rcases hr with h0 | hr
    · rw [List.eq_nil_of_length_eq_zero h0]; exact h
    · exact Memory.wf_writeBytes h hr
  · rw [e'] at e; cases e

theorem State.reset_mem_wf : State.reset.mem.wf = true := rfl

end Sys2Proof.Machine
end

