-- ==== Sys2Proof/Laws/State.lean ====
section
/-! SUPPORT. What each named update of the state leaves in each field: one lemma per field per update,
true by definition, so that no later proof unfolds a record update. -/

namespace Sys2Proof.Machine

/-! ## jump -/

section
variable (s : State) (a : Word)

@[simp] theorem State.jump_mem : (s.jump a).mem = s.mem := rfl
@[simp] theorem State.jump_V : (s.jump a).V = s.V := rfl
@[simp] theorem State.jump_I : (s.jump a).I = s.I := rfl
@[simp] theorem State.jump_pc : (s.jump a).pc = a := rfl
@[simp] theorem State.jump_sp : (s.jump a).sp = s.sp := rfl
@[simp] theorem State.jump_stack : (s.jump a).stack = s.stack := rfl
@[simp] theorem State.jump_DT : (s.jump a).DT = s.DT := rfl
@[simp] theorem State.jump_ST : (s.jump a).ST = s.ST := rfl
@[simp] theorem State.jump_fb : (s.jump a).fb = s.fb := rfl
@[simp] theorem State.jump_halted : (s.jump a).halted = s.halted := rfl
@[simp] theorem State.jump_fcause : (s.jump a).fcause = s.fcause := rfl
@[simp] theorem State.jump_fpc : (s.jump a).fpc = s.fpc := rfl
@[simp] theorem State.jump_fir : (s.jump a).fir = s.fir := rfl
@[simp] theorem State.jump_firValid : (s.jump a).firValid = s.firValid := rfl
@[simp] theorem State.jump_faddr : (s.jump a).faddr = s.faddr := rfl
@[simp] theorem State.jump_inputs : (s.jump a).inputs = s.inputs := rfl
@[simp] theorem State.jump_cycle : (s.jump a).cycle = s.cycle := rfl

end

/-! ## advance -/

section
variable (s : State) 

@[simp] theorem State.advance_mem : (s.advance).mem = s.mem := rfl
@[simp] theorem State.advance_V : (s.advance).V = s.V := rfl
@[simp] theorem State.advance_I : (s.advance).I = s.I := rfl
@[simp] theorem State.advance_pc : (s.advance).pc = s.pc + 2#16 := rfl
@[simp] theorem State.advance_sp : (s.advance).sp = s.sp := rfl
@[simp] theorem State.advance_stack : (s.advance).stack = s.stack := rfl
@[simp] theorem State.advance_DT : (s.advance).DT = s.DT := rfl
@[simp] theorem State.advance_ST : (s.advance).ST = s.ST := rfl
@[simp] theorem State.advance_fb : (s.advance).fb = s.fb := rfl
@[simp] theorem State.advance_halted : (s.advance).halted = s.halted := rfl
@[simp] theorem State.advance_fcause : (s.advance).fcause = s.fcause := rfl
@[simp] theorem State.advance_fpc : (s.advance).fpc = s.fpc := rfl
@[simp] theorem State.advance_fir : (s.advance).fir = s.fir := rfl
@[simp] theorem State.advance_firValid : (s.advance).firValid = s.firValid := rfl
@[simp] theorem State.advance_faddr : (s.advance).faddr = s.faddr := rfl
@[simp] theorem State.advance_inputs : (s.advance).inputs = s.inputs := rfl
@[simp] theorem State.advance_cycle : (s.advance).cycle = s.cycle := rfl

end

/-! ## skipIf -/

section
variable (s : State) (c : Bool)

@[simp] theorem State.skipIf_mem : (s.skipIf c).mem = s.mem := rfl
@[simp] theorem State.skipIf_V : (s.skipIf c).V = s.V := rfl
@[simp] theorem State.skipIf_I : (s.skipIf c).I = s.I := rfl
@[simp] theorem State.skipIf_pc : (s.skipIf c).pc = if c then s.pc + 4#16 else s.pc + 2#16 := rfl
@[simp] theorem State.skipIf_sp : (s.skipIf c).sp = s.sp := rfl
@[simp] theorem State.skipIf_stack : (s.skipIf c).stack = s.stack := rfl
@[simp] theorem State.skipIf_DT : (s.skipIf c).DT = s.DT := rfl
@[simp] theorem State.skipIf_ST : (s.skipIf c).ST = s.ST := rfl
@[simp] theorem State.skipIf_fb : (s.skipIf c).fb = s.fb := rfl
@[simp] theorem State.skipIf_halted : (s.skipIf c).halted = s.halted := rfl
@[simp] theorem State.skipIf_fcause : (s.skipIf c).fcause = s.fcause := rfl
@[simp] theorem State.skipIf_fpc : (s.skipIf c).fpc = s.fpc := rfl
@[simp] theorem State.skipIf_fir : (s.skipIf c).fir = s.fir := rfl
@[simp] theorem State.skipIf_firValid : (s.skipIf c).firValid = s.firValid := rfl
@[simp] theorem State.skipIf_faddr : (s.skipIf c).faddr = s.faddr := rfl
@[simp] theorem State.skipIf_inputs : (s.skipIf c).inputs = s.inputs := rfl
@[simp] theorem State.skipIf_cycle : (s.skipIf c).cycle = s.cycle := rfl

end

/-! ## setI -/

section
variable (s : State) (a : Word)

@[simp] theorem State.setI_mem : (s.setI a).mem = s.mem := rfl
@[simp] theorem State.setI_V : (s.setI a).V = s.V := rfl
@[simp] theorem State.setI_I : (s.setI a).I = a := rfl
@[simp] theorem State.setI_pc : (s.setI a).pc = s.pc := rfl
@[simp] theorem State.setI_sp : (s.setI a).sp = s.sp := rfl
@[simp] theorem State.setI_stack : (s.setI a).stack = s.stack := rfl
@[simp] theorem State.setI_DT : (s.setI a).DT = s.DT := rfl
@[simp] theorem State.setI_ST : (s.setI a).ST = s.ST := rfl
@[simp] theorem State.setI_fb : (s.setI a).fb = s.fb := rfl
@[simp] theorem State.setI_halted : (s.setI a).halted = s.halted := rfl
@[simp] theorem State.setI_fcause : (s.setI a).fcause = s.fcause := rfl
@[simp] theorem State.setI_fpc : (s.setI a).fpc = s.fpc := rfl
@[simp] theorem State.setI_fir : (s.setI a).fir = s.fir := rfl
@[simp] theorem State.setI_firValid : (s.setI a).firValid = s.firValid := rfl
@[simp] theorem State.setI_faddr : (s.setI a).faddr = s.faddr := rfl
@[simp] theorem State.setI_inputs : (s.setI a).inputs = s.inputs := rfl
@[simp] theorem State.setI_cycle : (s.setI a).cycle = s.cycle := rfl

end

/-! ## setV -/

section
variable (s : State) (x : RegIdx) (b : Byte)

@[simp] theorem State.setV_mem : (s.setV x b).mem = s.mem := rfl
@[simp] theorem State.setV_V : (s.setV x b).V = s.V.set x.toNat b := rfl
@[simp] theorem State.setV_I : (s.setV x b).I = s.I := rfl
@[simp] theorem State.setV_pc : (s.setV x b).pc = s.pc := rfl
@[simp] theorem State.setV_sp : (s.setV x b).sp = s.sp := rfl
@[simp] theorem State.setV_stack : (s.setV x b).stack = s.stack := rfl
@[simp] theorem State.setV_DT : (s.setV x b).DT = s.DT := rfl
@[simp] theorem State.setV_ST : (s.setV x b).ST = s.ST := rfl
@[simp] theorem State.setV_fb : (s.setV x b).fb = s.fb := rfl
@[simp] theorem State.setV_halted : (s.setV x b).halted = s.halted := rfl
@[simp] theorem State.setV_fcause : (s.setV x b).fcause = s.fcause := rfl
@[simp] theorem State.setV_fpc : (s.setV x b).fpc = s.fpc := rfl
@[simp] theorem State.setV_fir : (s.setV x b).fir = s.fir := rfl
@[simp] theorem State.setV_firValid : (s.setV x b).firValid = s.firValid := rfl
@[simp] theorem State.setV_faddr : (s.setV x b).faddr = s.faddr := rfl
@[simp] theorem State.setV_inputs : (s.setV x b).inputs = s.inputs := rfl
@[simp] theorem State.setV_cycle : (s.setV x b).cycle = s.cycle := rfl

end

/-! ## setFlag -/

section
variable (s : State) (f : Bool)

@[simp] theorem State.setFlag_mem : (s.setFlag f).mem = s.mem := rfl
@[simp] theorem State.setFlag_V : (s.setFlag f).V = s.V.set 15 (flagByte f) := rfl
@[simp] theorem State.setFlag_I : (s.setFlag f).I = s.I := rfl
@[simp] theorem State.setFlag_pc : (s.setFlag f).pc = s.pc := rfl
@[simp] theorem State.setFlag_sp : (s.setFlag f).sp = s.sp := rfl
@[simp] theorem State.setFlag_stack : (s.setFlag f).stack = s.stack := rfl
@[simp] theorem State.setFlag_DT : (s.setFlag f).DT = s.DT := rfl
@[simp] theorem State.setFlag_ST : (s.setFlag f).ST = s.ST := rfl
@[simp] theorem State.setFlag_fb : (s.setFlag f).fb = s.fb := rfl
@[simp] theorem State.setFlag_halted : (s.setFlag f).halted = s.halted := rfl
@[simp] theorem State.setFlag_fcause : (s.setFlag f).fcause = s.fcause := rfl
@[simp] theorem State.setFlag_fpc : (s.setFlag f).fpc = s.fpc := rfl
@[simp] theorem State.setFlag_fir : (s.setFlag f).fir = s.fir := rfl
@[simp] theorem State.setFlag_firValid : (s.setFlag f).firValid = s.firValid := rfl
@[simp] theorem State.setFlag_faddr : (s.setFlag f).faddr = s.faddr := rfl
@[simp] theorem State.setFlag_inputs : (s.setFlag f).inputs = s.inputs := rfl
@[simp] theorem State.setFlag_cycle : (s.setFlag f).cycle = s.cycle := rfl

end

/-! ## setResultAndFlag -/

section
variable (s : State) (x : RegIdx) (b : Byte) (f : Bool)

@[simp] theorem State.setResultAndFlag_mem : (s.setResultAndFlag x b f).mem = s.mem := rfl
@[simp] theorem State.setResultAndFlag_V : (s.setResultAndFlag x b f).V = (s.V.set x.toNat b).set 15 (flagByte f) := rfl
@[simp] theorem State.setResultAndFlag_I : (s.setResultAndFlag x b f).I = s.I := rfl
@[simp] theorem State.setResultAndFlag_pc : (s.setResultAndFlag x b f).pc = s.pc := rfl
@[simp] theorem State.setResultAndFlag_sp : (s.setResultAndFlag x b f).sp = s.sp := rfl
@[simp] theorem State.setResultAndFlag_stack : (s.setResultAndFlag x b f).stack = s.stack := rfl
@[simp] theorem State.setResultAndFlag_DT : (s.setResultAndFlag x b f).DT = s.DT := rfl
@[simp] theorem State.setResultAndFlag_ST : (s.setResultAndFlag x b f).ST = s.ST := rfl
@[simp] theorem State.setResultAndFlag_fb : (s.setResultAndFlag x b f).fb = s.fb := rfl
@[simp] theorem State.setResultAndFlag_halted : (s.setResultAndFlag x b f).halted = s.halted := rfl
@[simp] theorem State.setResultAndFlag_fcause : (s.setResultAndFlag x b f).fcause = s.fcause := rfl
@[simp] theorem State.setResultAndFlag_fpc : (s.setResultAndFlag x b f).fpc = s.fpc := rfl
@[simp] theorem State.setResultAndFlag_fir : (s.setResultAndFlag x b f).fir = s.fir := rfl
@[simp] theorem State.setResultAndFlag_firValid : (s.setResultAndFlag x b f).firValid = s.firValid := rfl
@[simp] theorem State.setResultAndFlag_faddr : (s.setResultAndFlag x b f).faddr = s.faddr := rfl
@[simp] theorem State.setResultAndFlag_inputs : (s.setResultAndFlag x b f).inputs = s.inputs := rfl
@[simp] theorem State.setResultAndFlag_cycle : (s.setResultAndFlag x b f).cycle = s.cycle := rfl

end

/-! ## raise -/

section
variable (s : State) (c : FaultCause) (w : Option Word) (a : Word)

@[simp] theorem State.raise_mem : (s.raise c w a).mem = s.mem := rfl
@[simp] theorem State.raise_V : (s.raise c w a).V = s.V := rfl
@[simp] theorem State.raise_I : (s.raise c w a).I = s.I := rfl
@[simp] theorem State.raise_pc : (s.raise c w a).pc = s.pc := rfl
@[simp] theorem State.raise_sp : (s.raise c w a).sp = s.sp := rfl
@[simp] theorem State.raise_stack : (s.raise c w a).stack = s.stack := rfl
@[simp] theorem State.raise_DT : (s.raise c w a).DT = s.DT := rfl
@[simp] theorem State.raise_ST : (s.raise c w a).ST = s.ST := rfl
@[simp] theorem State.raise_fb : (s.raise c w a).fb = s.fb := rfl
@[simp] theorem State.raise_halted : (s.raise c w a).halted = true := rfl
@[simp] theorem State.raise_fcause : (s.raise c w a).fcause = c := rfl
@[simp] theorem State.raise_fpc : (s.raise c w a).fpc = s.pc := rfl
@[simp] theorem State.raise_fir : (s.raise c w a).fir = w.getD 0#16 := rfl
@[simp] theorem State.raise_firValid : (s.raise c w a).firValid = w.isSome := rfl
@[simp] theorem State.raise_faddr : (s.raise c w a).faddr = a := rfl
@[simp] theorem State.raise_inputs : (s.raise c w a).inputs = s.inputs := rfl
@[simp] theorem State.raise_cycle : (s.raise c w a).cycle = s.cycle := rfl

end

/-! ## raiseOutOfBounds -/

section
variable (s : State) (w : Option Word) (a : Nat)

@[simp] theorem State.raiseOutOfBounds_mem : (s.raiseOutOfBounds w a).mem = s.mem := rfl
@[simp] theorem State.raiseOutOfBounds_V : (s.raiseOutOfBounds w a).V = s.V := rfl
@[simp] theorem State.raiseOutOfBounds_I : (s.raiseOutOfBounds w a).I = s.I := rfl
@[simp] theorem State.raiseOutOfBounds_pc : (s.raiseOutOfBounds w a).pc = s.pc := rfl
@[simp] theorem State.raiseOutOfBounds_sp : (s.raiseOutOfBounds w a).sp = s.sp := rfl
@[simp] theorem State.raiseOutOfBounds_stack : (s.raiseOutOfBounds w a).stack = s.stack := rfl
@[simp] theorem State.raiseOutOfBounds_DT : (s.raiseOutOfBounds w a).DT = s.DT := rfl
@[simp] theorem State.raiseOutOfBounds_ST : (s.raiseOutOfBounds w a).ST = s.ST := rfl
@[simp] theorem State.raiseOutOfBounds_fb : (s.raiseOutOfBounds w a).fb = s.fb := rfl
@[simp] theorem State.raiseOutOfBounds_halted : (s.raiseOutOfBounds w a).halted = true := rfl
@[simp] theorem State.raiseOutOfBounds_fcause : (s.raiseOutOfBounds w a).fcause = .memOutOfBounds := rfl
@[simp] theorem State.raiseOutOfBounds_fpc : (s.raiseOutOfBounds w a).fpc = s.pc := rfl
@[simp] theorem State.raiseOutOfBounds_fir : (s.raiseOutOfBounds w a).fir = w.getD 0#16 := rfl
@[simp] theorem State.raiseOutOfBounds_firValid : (s.raiseOutOfBounds w a).firValid = w.isSome := rfl
@[simp] theorem State.raiseOutOfBounds_faddr : (s.raiseOutOfBounds w a).faddr = BitVec.ofNat 16 a := rfl
@[simp] theorem State.raiseOutOfBounds_inputs : (s.raiseOutOfBounds w a).inputs = s.inputs := rfl
@[simp] theorem State.raiseOutOfBounds_cycle : (s.raiseOutOfBounds w a).cycle = s.cycle := rfl

end

/-! ## tick -/

section
variable (s : State) 

@[simp] theorem State.tick_mem : (s.tick).mem = s.mem := rfl
@[simp] theorem State.tick_V : (s.tick).V = s.V := rfl
@[simp] theorem State.tick_I : (s.tick).I = s.I := rfl
@[simp] theorem State.tick_pc : (s.tick).pc = s.pc := rfl
@[simp] theorem State.tick_sp : (s.tick).sp = s.sp := rfl
@[simp] theorem State.tick_stack : (s.tick).stack = s.stack := rfl
@[simp] theorem State.tick_DT : (s.tick).DT = tickDown s.DT := rfl
@[simp] theorem State.tick_ST : (s.tick).ST = tickDown s.ST := rfl
@[simp] theorem State.tick_fb : (s.tick).fb = s.fb := rfl
@[simp] theorem State.tick_halted : (s.tick).halted = s.halted := rfl
@[simp] theorem State.tick_fcause : (s.tick).fcause = s.fcause := rfl
@[simp] theorem State.tick_fpc : (s.tick).fpc = s.fpc := rfl
@[simp] theorem State.tick_fir : (s.tick).fir = s.fir := rfl
@[simp] theorem State.tick_firValid : (s.tick).firValid = s.firValid := rfl
@[simp] theorem State.tick_faddr : (s.tick).faddr = s.faddr := rfl
@[simp] theorem State.tick_inputs : (s.tick).inputs = s.inputs := rfl
@[simp] theorem State.tick_cycle : (s.tick).cycle = s.cycle := rfl

end

/-! ## nextInput -/

section
variable (s : State) 

@[simp] theorem State.nextInput_mem : (s.nextInput).mem = s.mem := rfl
@[simp] theorem State.nextInput_V : (s.nextInput).V = s.V := rfl
@[simp] theorem State.nextInput_I : (s.nextInput).I = s.I := rfl
@[simp] theorem State.nextInput_pc : (s.nextInput).pc = s.pc := rfl
@[simp] theorem State.nextInput_sp : (s.nextInput).sp = s.sp := rfl
@[simp] theorem State.nextInput_stack : (s.nextInput).stack = s.stack := rfl
@[simp] theorem State.nextInput_DT : (s.nextInput).DT = s.DT := rfl
@[simp] theorem State.nextInput_ST : (s.nextInput).ST = s.ST := rfl
@[simp] theorem State.nextInput_fb : (s.nextInput).fb = s.fb := rfl
@[simp] theorem State.nextInput_halted : (s.nextInput).halted = s.halted := rfl
@[simp] theorem State.nextInput_fcause : (s.nextInput).fcause = s.fcause := rfl
@[simp] theorem State.nextInput_fpc : (s.nextInput).fpc = s.fpc := rfl
@[simp] theorem State.nextInput_fir : (s.nextInput).fir = s.fir := rfl
@[simp] theorem State.nextInput_firValid : (s.nextInput).firValid = s.firValid := rfl
@[simp] theorem State.nextInput_faddr : (s.nextInput).faddr = s.faddr := rfl
@[simp] theorem State.nextInput_inputs : (s.nextInput).inputs = s.inputs.tail := rfl
@[simp] theorem State.nextInput_cycle : (s.nextInput).cycle = s.cycle + 1 := rfl

end

/-! ## setFirstRegs -/

section
variable (s : State) (l : List Byte)

@[simp] theorem State.setFirstRegs_mem : (s.setFirstRegs l).mem = s.mem := rfl
@[simp] theorem State.setFirstRegs_I : (s.setFirstRegs l).I = s.I := rfl
@[simp] theorem State.setFirstRegs_pc : (s.setFirstRegs l).pc = s.pc := rfl
@[simp] theorem State.setFirstRegs_sp : (s.setFirstRegs l).sp = s.sp := rfl
@[simp] theorem State.setFirstRegs_stack : (s.setFirstRegs l).stack = s.stack := rfl
@[simp] theorem State.setFirstRegs_DT : (s.setFirstRegs l).DT = s.DT := rfl
@[simp] theorem State.setFirstRegs_ST : (s.setFirstRegs l).ST = s.ST := rfl
@[simp] theorem State.setFirstRegs_fb : (s.setFirstRegs l).fb = s.fb := rfl
@[simp] theorem State.setFirstRegs_halted : (s.setFirstRegs l).halted = s.halted := rfl
@[simp] theorem State.setFirstRegs_fcause : (s.setFirstRegs l).fcause = s.fcause := rfl
@[simp] theorem State.setFirstRegs_fpc : (s.setFirstRegs l).fpc = s.fpc := rfl
@[simp] theorem State.setFirstRegs_fir : (s.setFirstRegs l).fir = s.fir := rfl
@[simp] theorem State.setFirstRegs_firValid : (s.setFirstRegs l).firValid = s.firValid := rfl
@[simp] theorem State.setFirstRegs_faddr : (s.setFirstRegs l).faddr = s.faddr := rfl
@[simp] theorem State.setFirstRegs_inputs : (s.setFirstRegs l).inputs = s.inputs := rfl
@[simp] theorem State.setFirstRegs_cycle : (s.setFirstRegs l).cycle = s.cycle := rfl

end

/-! ## draw -/

section
variable (s : State) (x y : RegIdx) (l : List Byte)

@[simp] theorem State.draw_mem : (s.draw x y l).mem = s.mem := rfl
@[simp] theorem State.draw_I : (s.draw x y l).I = s.I := rfl
@[simp] theorem State.draw_pc : (s.draw x y l).pc = s.pc := rfl
@[simp] theorem State.draw_sp : (s.draw x y l).sp = s.sp := rfl
@[simp] theorem State.draw_stack : (s.draw x y l).stack = s.stack := rfl
@[simp] theorem State.draw_DT : (s.draw x y l).DT = s.DT := rfl
@[simp] theorem State.draw_ST : (s.draw x y l).ST = s.ST := rfl
@[simp] theorem State.draw_halted : (s.draw x y l).halted = s.halted := rfl
@[simp] theorem State.draw_fcause : (s.draw x y l).fcause = s.fcause := rfl
@[simp] theorem State.draw_fpc : (s.draw x y l).fpc = s.fpc := rfl
@[simp] theorem State.draw_fir : (s.draw x y l).fir = s.fir := rfl
@[simp] theorem State.draw_firValid : (s.draw x y l).firValid = s.firValid := rfl
@[simp] theorem State.draw_faddr : (s.draw x y l).faddr = s.faddr := rfl
@[simp] theorem State.draw_inputs : (s.draw x y l).inputs = s.inputs := rfl
@[simp] theorem State.draw_cycle : (s.draw x y l).cycle = s.cycle := rfl

end

/-! ## Registers and the inputs of the cycle -/

theorem State.v_eq (s : State) (x : RegIdx) : s.v x = s.V[x.toNat] := rfl

@[simp] theorem State.v_setV_same (s : State) (x : RegIdx) (b : Byte) : (s.setV x b).v x = b := by
  simp [State.v]

theorem State.v_setV (s : State) (x y : RegIdx) (b : Byte) :
    (s.setV x b).v y = if y = x then b else s.v y := by
  by_cases h : y = x
  · subst h; simp
  · have : x.toNat ≠ y.toNat := fun e => h (BitVec.eq_of_toNat_eq e.symm)
    simp [State.v, this, h]

@[simp] theorem State.v_setV_other (s : State) {x y : RegIdx} (b : Byte) (h : y ≠ x) :
    (s.setV x b).v y = s.v y := by simp [State.v_setV, h]

@[simp] theorem State.v_setFlag_flag (s : State) (f : Bool) : (s.setFlag f).v flagReg = flagByte f :=
  State.v_setV_same s flagReg _

@[simp] theorem State.v_setFlag_other (s : State) {y : RegIdx} (f : Bool) (h : y ≠ flagReg) :
    (s.setFlag f).v y = s.v y := State.v_setV_other s _ h

/-- The flag is the value that remains in `VF`, whatever the destination was. -/
@[simp] theorem State.v_setResultAndFlag_flag (s : State) (x : RegIdx) (b : Byte) (f : Bool) :
    (s.setResultAndFlag x b f).v flagReg = flagByte f := State.v_setFlag_flag _ f

theorem State.v_setResultAndFlag (s : State) (x y : RegIdx) (b : Byte) (f : Bool) :
    (s.setResultAndFlag x b f).v y = if y = flagReg then flagByte f else if y = x then b else s.v y := by
  show ((s.setV x b).setV flagReg (flagByte f)).v y = _
  rw [State.v_setV, State.v_setV]

/-- An update that leaves `V` alone leaves every register alone. -/
theorem State.v_congr {s t : State} (h : t.V = s.V) (x : RegIdx) : t.v x = s.v x := by
  simp [State.v, h]

@[simp] theorem State.v_jump (s : State) (a : Word) (x : RegIdx) : (s.jump a).v x = s.v x := rfl
@[simp] theorem State.v_advance (s : State) (x : RegIdx) : s.advance.v x = s.v x := rfl
@[simp] theorem State.v_skipIf (s : State) (c : Bool) (x : RegIdx) : (s.skipIf c).v x = s.v x := rfl
@[simp] theorem State.v_setI (s : State) (a : Word) (x : RegIdx) : (s.setI a).v x = s.v x := rfl
@[simp] theorem State.v_tick (s : State) (x : RegIdx) : s.tick.v x = s.v x := rfl
@[simp] theorem State.v_nextInput (s : State) (x : RegIdx) : s.nextInput.v x = s.v x := rfl
@[simp] theorem State.v_raise (s : State) (c : FaultCause) (w : Option Word) (a : Word) (x : RegIdx) :
    (s.raise c w a).v x = s.v x := rfl
@[simp] theorem State.v_raiseOutOfBounds (s : State) (w : Option Word) (a : Nat) (x : RegIdx) :
    (s.raiseOutOfBounds w a).v x = s.v x := rfl

/-- The registers after a load of the first ones: those with a byte hold it, the others keep theirs. -/
theorem State.v_setFirstRegs (s : State) (l : List Byte) (x : RegIdx) :
    (s.setFirstRegs l).v x = l.getD x.toNat (s.v x) := by
  simp [State.v, State.setFirstRegs]

/-- With an input placed, that is the input of the cycle. -/
@[simp] theorem State.input_cons (s : State) (i : HostInput) (l : List HostInput) (h : s.inputs = i :: l) :
    s.input = i := by simp [State.input, h]

end Sys2Proof.Machine
end

