-- ==== Sys2Proof/Laws/Word.lean ====
section
/-! SUPPORT. The fields of an assembled word are the parts it was assembled from. -/

namespace Sys2Proof

theorem wordOfNibbles_toNat (a b c d : Nibble) :
    (wordOfNibbles a b c d).toNat = a.toNat * 4096 + b.toNat * 256 + c.toNat * 16 + d.toNat := by
  have hd := d.isLt; have hc := c.isLt; have hb := b.isLt
  show (a ++ b ++ c ++ d).toNat = _
  rw [BitVec.toNat_append, BitVec.toNat_append, BitVec.toNat_append,
    ← Nat.shiftLeft_add_eq_or_of_lt hd, ← Nat.shiftLeft_add_eq_or_of_lt hc,
    ← Nat.shiftLeft_add_eq_or_of_lt hb]
  simp only [Nat.shiftLeft_eq]
  omega

theorem wordOfByte_toNat (a b : Nibble) (k : Byte) :
    (wordOfByte a b k).toNat = a.toNat * 4096 + b.toNat * 256 + k.toNat := by
  have hk := k.isLt; have hb := b.isLt
  show (a ++ b ++ k).toNat = _
  rw [BitVec.toNat_append, BitVec.toNat_append, ← Nat.shiftLeft_add_eq_or_of_lt hk,
    ← Nat.shiftLeft_add_eq_or_of_lt hb]
  simp only [Nat.shiftLeft_eq]
  omega

theorem wordOfAddr_toNat (a : Nibble) (nnn : Addr12) :
    (wordOfAddr a nnn).toNat = a.toNat * 4096 + nnn.toNat := by
  have hn := nnn.isLt
  show (a ++ nnn).toNat = _
  rw [BitVec.toNat_append, ← Nat.shiftLeft_add_eq_or_of_lt hn]
  simp only [Nat.shiftLeft_eq]

theorem wordOfBytes_toNat (hi lo : Byte) : (wordOfBytes hi lo).toNat = hi.toNat * 256 + lo.toNat := by
  have hl := lo.isLt
  show (hi ++ lo).toNat = _
  rw [BitVec.toNat_append, ← Nat.shiftLeft_add_eq_or_of_lt hl]
  simp only [Nat.shiftLeft_eq]

theorem Word.op_toNat (w : Word) : (Word.op w).toNat = w.toNat / 4096 % 16 := by
  simp [Word.op, BitVec.extractLsb'_toNat, Nat.shiftRight_eq_div_pow]
theorem Word.x_toNat (w : Word) : (Word.x w).toNat = w.toNat / 256 % 16 := by
  simp [Word.x, BitVec.extractLsb'_toNat, Nat.shiftRight_eq_div_pow]
theorem Word.y_toNat (w : Word) : (Word.y w).toNat = w.toNat / 16 % 16 := by
  simp [Word.y, BitVec.extractLsb'_toNat, Nat.shiftRight_eq_div_pow]
theorem Word.n_toNat (w : Word) : (Word.n w).toNat = w.toNat % 16 := by
  simp [Word.n, BitVec.extractLsb'_toNat]
theorem Word.kk_toNat (w : Word) : (Word.kk w).toNat = w.toNat % 256 := by
  simp [Word.kk, BitVec.extractLsb'_toNat]
theorem Word.nnn_toNat (w : Word) : (Word.nnn w).toNat = w.toNat % 4096 := by
  simp [Word.nnn, BitVec.extractLsb'_toNat]

section
variable (a b c d : Nibble) (k : Byte) (nnn : Addr12)

@[simp] theorem op_wordOfNibbles : Word.op (wordOfNibbles a b c d) = a := by
  apply BitVec.eq_of_toNat_eq; rw [Word.op_toNat, wordOfNibbles_toNat]; omega
@[simp] theorem x_wordOfNibbles : Word.x (wordOfNibbles a b c d) = b := by
  apply BitVec.eq_of_toNat_eq; rw [Word.x_toNat, wordOfNibbles_toNat]; omega
@[simp] theorem y_wordOfNibbles : Word.y (wordOfNibbles a b c d) = c := by
  apply BitVec.eq_of_toNat_eq; rw [Word.y_toNat, wordOfNibbles_toNat]; omega
@[simp] theorem n_wordOfNibbles : Word.n (wordOfNibbles a b c d) = d := by
  apply BitVec.eq_of_toNat_eq; rw [Word.n_toNat, wordOfNibbles_toNat]; omega
@[simp] theorem op_wordOfByte : Word.op (wordOfByte a b k) = a := by
  apply BitVec.eq_of_toNat_eq; rw [Word.op_toNat, wordOfByte_toNat]; omega
@[simp] theorem x_wordOfByte : Word.x (wordOfByte a b k) = b := by
  apply BitVec.eq_of_toNat_eq; rw [Word.x_toNat, wordOfByte_toNat]; omega
@[simp] theorem kk_wordOfByte : Word.kk (wordOfByte a b k) = k := by
  apply BitVec.eq_of_toNat_eq; rw [Word.kk_toNat, wordOfByte_toNat]; omega
@[simp] theorem op_wordOfAddr : Word.op (wordOfAddr a nnn) = a := by
  apply BitVec.eq_of_toNat_eq; rw [Word.op_toNat, wordOfAddr_toNat]; omega
@[simp] theorem nnn_wordOfAddr : Word.nnn (wordOfAddr a nnn) = nnn := by
  apply BitVec.eq_of_toNat_eq; rw [Word.nnn_toNat, wordOfAddr_toNat]; omega

end

/-- A word is assembled from its own fields, in each of the three layouts. -/
theorem wordOfNibbles_fields (w : Word) :
    wordOfNibbles (Word.op w) (Word.x w) (Word.y w) (Word.n w) = w := by
  apply BitVec.eq_of_toNat_eq
  rw [wordOfNibbles_toNat, Word.op_toNat, Word.x_toNat, Word.y_toNat, Word.n_toNat]; omega

theorem wordOfByte_fields (w : Word) : wordOfByte (Word.op w) (Word.x w) (Word.kk w) = w := by
  apply BitVec.eq_of_toNat_eq
  rw [wordOfByte_toNat, Word.op_toNat, Word.x_toNat, Word.kk_toNat]; omega

theorem wordOfAddr_fields (w : Word) : wordOfAddr (Word.op w) (Word.nnn w) = w := by
  apply BitVec.eq_of_toNat_eq
  rw [wordOfAddr_toNat, Word.op_toNat, Word.nnn_toNat]; omega

/-- The two bytes of a word, put together again, are the word. -/
@[simp] theorem wordOfBytes_highByte_lowByte (w : Word) : wordOfBytes (highByte w) (lowByte w) = w := by
  apply BitVec.eq_of_toNat_eq
  rw [wordOfBytes_toNat]
  simp only [highByte, lowByte, BitVec.extractLsb'_toNat, Nat.shiftRight_eq_div_pow]
  omega

end Sys2Proof
end

