-- ==== Sys2Proof/Laws/Ops.lean ====
section
/-! SUPPORT. One lemma per shared operation that says once everything it can do. -/

namespace Sys2Proof.Machine

@[simp] theorem flagByte_true : flagByte true = 1#8 := rfl
@[simp] theorem flagByte_false : flagByte false = 0#8 := rfl

@[simp] theorem addrOperand_toNat (nnn : Addr12) : (addrOperand nnn).toNat = nnn.toNat := by
  have := nnn.isLt
  simp only [addrOperand, BitVec.toNat_setWidth]
  omega

@[simp] theorem zeroExtend16_toNat (b : Byte) : (zeroExtend16 b).toNat = b.toNat := by
  have := b.isLt
  simp only [zeroExtend16, BitVec.toNat_setWidth]
  omega

theorem zeroExtend16_eq (b : Byte) : zeroExtend16 b = BitVec.ofNat 16 b.toNat := by
  apply BitVec.eq_of_toNat_eq; have := b.isLt; simp; omega

@[simp] theorem glyphAddress_toNat (b : Byte) : (glyphAddress b).toNat = 5 * b.toNat := by
  have := b.isLt
  simp only [glyphAddress, BitVec.toNat_mul, zeroExtend16_toNat, BitVec.toNat_ofNat]
  omega

theorem jumpV0Target_toNat (nnn : Addr12) (v0 : Byte) :
    (jumpV0Target nnn v0).toNat = nnn.toNat / 256 * 256 + (nnn.toNat % 256 + v0.toNat) % 256 := by
  simp only [jumpV0Target, BitVec.toNat_setWidth, BitVec.toNat_append, BitVec.toNat_add,
    BitVec.extractLsb'_toNat]
  rw [← Nat.shiftLeft_add_eq_or_of_lt (by omega)]
  simp only [Nat.shiftLeft_eq, Nat.shiftRight_eq_div_pow]
  have := nnn.isLt
  omega

/-- Everything a push can do. -/
theorem State.push_cases (s : State) (ret : Word) :
    (∃ h : s.sp.val < 16, s.push ret =
      some { s with stack := s.stack.set s.sp.val ret, sp := ⟨s.sp.val + 1, by omega⟩ }) ∨
    (s.sp.val = 16 ∧ s.push ret = none) := by
  by_cases h : s.sp.val < 16
  · exact .inl ⟨h, dif_pos h⟩
  · exact .inr ⟨by have := s.sp.isLt; omega, dif_neg h⟩

/-- Everything a pop can do. -/
theorem State.pop_cases (s : State) :
    (∃ h : 0 < s.sp.val, s.pop =
      some (s.stack[s.sp.val - 1], { s with sp := ⟨s.sp.val - 1, by omega⟩ })) ∨
    (s.sp.val = 0 ∧ s.pop = none) := by
  by_cases h : 0 < s.sp.val
  · exact .inl ⟨h, dif_pos h⟩
  · exact .inr ⟨by omega, dif_neg h⟩

/-- Everything a store at `I` can do: all the bytes are stored and `pc` advances, or it is a fault. -/
theorem State.storeAtI_cases (s : State) (i : Instr) (bytes : List Byte) :
    ((bytes.length = 0 ∨ s.I.toNat + bytes.length ≤ 4096) ∧
      s.storeAtI i bytes = State.advance { s with mem := s.mem.writeBytes s.I.toNat bytes }) ∨
    ((0 < bytes.length ∧ 4096 < s.I.toNat + bytes.length) ∧
      s.storeAtI i bytes = s.raiseOutOfBounds (some (encode i)) (max s.I.toNat 4096)) := by
  rcases Memory.writeRange_cases s.mem s.base bytes with ⟨h, e⟩ | ⟨h, e⟩
  · exact .inl ⟨h, by simp only [State.storeAtI, e]; rfl⟩
  · exact .inr ⟨h, by simp only [State.storeAtI, e]; rfl⟩

/-- Everything a load at `I` can do: all the bytes are read and handed on, or it is a fault. -/
theorem State.loadAtI_cases (s : State) (i : Instr) (n : Nat) (use : List Byte → State) :
    ((n = 0 ∨ s.I.toNat + n ≤ 4096) ∧ s.loadAtI i n use = (use (s.spriteRows n)).advance) ∨
    ((0 < n ∧ 4096 < s.I.toNat + n) ∧
      s.loadAtI i n use = s.raiseOutOfBounds (some (encode i)) (max s.I.toNat 4096)) := by
  rcases Memory.readRange_cases s.mem s.base n with ⟨h, e⟩ | ⟨h, e⟩
  · exact .inl ⟨h, by simp only [State.loadAtI, e]; rfl⟩
  · exact .inr ⟨h, by simp only [State.loadAtI, e]; rfl⟩

/-- Everything the fetch can do. -/
theorem State.fetch_cases (s : State) :
    (s.pc.toNat ≤ 4094 ∧
      s.fetch = .ok (wordOfBytes (s.mem.read s.pc.toNat) (s.mem.read (s.pc.toNat + 1)))) ∨
    (4095 ≤ s.pc.toNat ∧ s.fetch = .error (max s.pc.toNat 4096)) := by
  rcases Memory.readRange_cases s.mem s.pc.toNat 2 with ⟨h, e⟩ | ⟨h, e⟩
  · exact .inl ⟨by omega, by simp only [State.fetch, e]; rfl⟩
  · exact .inr ⟨by omega, by simp only [State.fetch, e]; rfl⟩

/-- A key skip: the key exists and its state decides, or it is a fault. -/
theorem State.skipOnKey_cases (s : State) (i : Instr) (x : RegIdx) (down : Bool) :
    (∃ h : (s.v x).toNat < 16,
      s.skipOnKey i x down = s.skipIf (s.input.keys[(s.v x).toNat] == down)) ∨
    (15 < (s.v x).toNat ∧
      s.skipOnKey i x down = s.raise .keyIndexFault (some (encode i)) (zeroExtend16 (s.v x))) := by
  by_cases h : (s.v x).toNat < 16
  · exact .inl ⟨h, by simp [State.skipOnKey, State.key, h]⟩
  · exact .inr ⟨by omega, by simp [State.skipOnKey, State.key, h]⟩

/-- Everything the end of a cycle does. -/
theorem State.endCycle_eq (t : State) :
    t.endCycle = if t.halted then t.nextInput else t.tick.nextInput := by
  simp only [State.endCycle]; split <;> rfl

theorem tickDown_toNat (t : Byte) : (tickDown t).toNat = t.toNat - 1 := by
  unfold tickDown
  split
  · next h => subst h; rfl
  · next h => exact BitVec.toNat_sub_of_le (by
      have : t.toNat ≠ 0 := fun e => h (BitVec.eq_of_toNat_eq e)
      rw [BitVec.le_def]; simp; omega)

end Sys2Proof.Machine
end

