-- ==== Sys2Proof/Laws/Display.lean ====
section
/-! SUPPORT. The framebuffer pixel by pixel: what inverting a pixel and plotting a sprite bit do. -/

namespace Sys2Proof.Machine

theorem Framebuffer.pixel_outside (fb : Framebuffer) {x y : Nat} (h : 63 < x ∨ 31 < y) :
    fb.pixel x y = false := by
  unfold Framebuffer.pixel
  split
  · exact BitVec.getLsbD_of_ge _ _ (by omega)
  · rfl

/-- Inverting a pixel of the grid changes that pixel and no other. -/
theorem Framebuffer.pixel_flip (fb : Framebuffer) {x y : Nat} (hx : x ≤ 63) (hy : y ≤ 31) (px py : Nat) :
    (fb.flip x y).pixel px py = (fb.pixel px py ^^ (decide (px = x) && decide (py = y))) := by
  have hy' : y < 32 := by omega
  unfold Framebuffer.flip Framebuffer.pixel
  simp only [hy', dif_pos]
  by_cases hpy : py < 32
  · simp only [hpy, dif_pos]
    by_cases hyy : y = py
    · subst hyy
      by_cases hxx : px = x
      · subst hxx; simp [show px < 64 by omega]
      · simp [Ne.symm hxx, hxx]
    · simp [hyy, Ne.symm hyy]
  · have : py ≠ y := by omega
    simp [hpy, this]

/-- Everything a plot does to the picture: it inverts the pixel the bit falls on, if the bit is 1 and
falls inside the grid. -/
theorem Canvas.pixel_plot (cv : Canvas) (x y : Nat) (bit : Bool) (px py : Nat) :
    (cv.plot x y bit).fb.pixel px py =
      (cv.fb.pixel px py ^^ (bit && decide (px = x ∧ py = y ∧ px ≤ 63 ∧ py ≤ 31))) := by
  unfold Canvas.plot
  split
  · next h =>
    obtain ⟨hx, hy, rfl⟩ := h
    rw [Framebuffer.pixel_flip _ hx hy]
    by_cases h1 : px = x <;> by_cases h2 : py = y <;> simp [h1, h2, hx, hy]
  · next h =>
    cases bit with
    | false => simp
    | true =>
      have : ¬(px = x ∧ py = y ∧ px ≤ 63 ∧ py ≤ 31) := by
        rintro ⟨rfl, rfl, h1, h2⟩; exact h ⟨h1, h2, rfl⟩
      simp [this]

/-- Everything a plot does to the collision: a 1 bit on a pixel that was 1. -/
theorem Canvas.hit_plot (cv : Canvas) (x y : Nat) (bit : Bool) :
    (cv.plot x y bit).hit = (cv.hit || (bit && cv.fb.pixel x y)) := by
  unfold Canvas.plot
  split
  · next h => simp [h.2.2]
  · next h =>
    cases bit with
    | false => simp
    | true =>
      have : 63 < x ∨ 31 < y := by
        by_contra hc; exact h ⟨by omega, by omega, rfl⟩
      simp [Framebuffer.pixel_outside cv.fb this]

theorem Framebuffer.pixel_clear (px py : Nat) :
    Framebuffer.pixel (Vector.replicate 32 0) px py = false := by
  unfold Framebuffer.pixel; split <;> simp

end Sys2Proof.Machine
end

