-- ==== Sys2Proof/Laws/Frame.lean ====
section
/-! SUPPORT. The frame of each shared way an instruction ends: what it leaves unchanged. -/

namespace Sys2Proof.Machine

theorem OnlyChanged.of_jump (s : State) (a : Word) : OnlyChanged [] s (s.jump a) := by
  constructor <;> intros <;> rfl

theorem OnlyChanged.of_skipIf (s : State) (c : Bool) : OnlyChanged [] s (s.skipIf c) :=
  OnlyChanged.of_jump s _

theorem OnlyChanged.of_setV (s : State) (x : RegIdx) (b : Byte) :
    OnlyChanged [.v x] s (s.setV x b).advance := by
  constructor <;> intros <;> try rfl
  rename_i r h
  simp only [List.mem_singleton, Part.v.injEq] at h
  rw [State.v_advance, State.v_setV_other s b h]

theorem OnlyChanged.of_setResultAndFlag (s : State) (x : RegIdx) (b : Byte) (f : Bool) :
    OnlyChanged [.v x, .v flagReg] s (s.setResultAndFlag x b f).advance := by
  constructor <;> intros <;> try rfl
  rename_i r h
  simp only [List.mem_cons, List.not_mem_nil, or_false, not_or, Part.v.injEq] at h
  rw [State.v_advance, State.v_setResultAndFlag, if_neg h.2, if_neg h.1]

theorem OnlyChanged.of_setI (s : State) (a : Word) : OnlyChanged [.index] s (s.setI a).advance := by
  constructor <;> intros <;> first | rfl | simp_all

/-- Fault entry: the record is written and nothing else changes. -/
theorem FaultTaken.of_raise (s : State) (c : FaultCause) (w : Option Word) (a : Word) :
    FaultTaken c w a s (s.raise c w a) := by
  constructor <;> try rfl
  constructor <;> intros <;> first | rfl | simp_all

/-- A store at `I` that stays in memory changes the bytes stored to and `pc`. -/
theorem OnlyChanged.of_store (s : State) (bytes : List Byte) :
    OnlyChanged [.memory s.base bytes.length] s
      (State.advance { s with mem := s.mem.writeBytes s.I.toNat bytes }) := by
  constructor <;> intros <;> first | rfl | skip
  rename_i a h
  exact Memory.read_writeBytes_outside _ _ (h s.base bytes.length (List.mem_singleton.mpr rfl))

end Sys2Proof.Machine
end

