-- ==== Sys2Proof/Laws/PerInstr.lean ====
section
/-! SUPPORT. Per instruction: the word an instruction is encoded to is selected by its own row of the
opcode map (spec/30_encoding.md R95), `ir AND mask = match`. -/

namespace Sys2Proof.Laws

/-- The encoded word selects the instruction's own row of R95. -/
def OpcodeRow.Statement (i : Instr) : Prop := i.row.selects (encode i) = true

theorem addr_and (a a' : Nibble) (n n' : Addr12) :
    wordOfAddr a n &&& wordOfAddr a' n' = wordOfAddr (a &&& a') (n &&& n') := BitVec.and_append

theorem byte_and (a b a' b' : Nibble) (k k' : Byte) :
    wordOfByte a b k &&& wordOfByte a' b' k' = wordOfByte (a &&& a') (b &&& b') (k &&& k') :=
  (BitVec.and_append (x₁ := a ++ b) (x₂ := a' ++ b')).trans
    (congrArg (· ++ (k &&& k')) BitVec.and_append)

theorem nibbles_and (a b c d a' b' c' d' : Nibble) :
    wordOfNibbles a b c d &&& wordOfNibbles a' b' c' d' =
      wordOfNibbles (a &&& a') (b &&& b') (c &&& c') (d &&& d') :=
  (BitVec.and_append (x₁ := a ++ b ++ c) (x₂ := a' ++ b' ++ c')).trans
    (congrArg (· ++ (d &&& d'))
      ((BitVec.and_append (x₁ := a ++ b) (x₂ := a' ++ b')).trans
        (congrArg (· ++ (c &&& c')) BitVec.and_append)))

@[simp] theorem and_nibble_ones (a : Nibble) : a &&& 0xF#4 = a := BitVec.and_allOnes
@[simp] theorem and_byte_ones (k : Byte) : k &&& 0xFF#8 = k := BitVec.and_allOnes

/-- A word of nibbles whose fixed nibbles are the first and the last. -/
theorem nibbles_fixed_ends (a b c d : Nibble) :
    wordOfNibbles a b c d &&& 0xF00F = wordOfNibbles a 0 0 d := by
  rw [show (0xF00F : Word) = wordOfNibbles 0xF 0 0 0xF by decide, nibbles_and]; simp

/-- A word of nibbles whose only fixed nibble is the first. -/
theorem nibbles_fixed_first (a b c d : Nibble) :
    wordOfNibbles a b c d &&& 0xF000 = wordOfNibbles a 0 0 0 := by
  rw [show (0xF000 : Word) = wordOfNibbles 0xF 0 0 0 by decide, nibbles_and]; simp

/-- A word with a byte operand, whose only fixed part is the first nibble. -/
theorem byte_fixed_first (a b : Nibble) (k : Byte) :
    wordOfByte a b k &&& 0xF000 = wordOfByte a 0 0 := by
  rw [show (0xF000 : Word) = wordOfByte 0xF 0 0 by decide, byte_and]; simp

/-- A word whose first nibble and low byte are fixed. -/
theorem byte_fixed_ends (a b : Nibble) (k : Byte) :
    wordOfByte a b k &&& 0xF0FF = wordOfByte a 0 k := by
  rw [show (0xF0FF : Word) = wordOfByte 0xF 0 0xFF by decide, byte_and]; simp

/-- A word with an address operand. -/
theorem addr_fixed_first (a : Nibble) (n : Addr12) : wordOfAddr a n &&& 0xF000 = wordOfAddr a 0 := by
  rw [show (0xF000 : Word) = wordOfAddr 0xF 0 by decide, addr_and]; simp

theorem OpcodeRow.cls (ign : Nibble) : OpcodeRow.Statement (.cls ign) := by
  simp only [OpcodeRow.Statement, Instr.row, OpcodeRow.selects, encode, byte_fixed_ends]; decide

theorem OpcodeRow.ret (ign : Nibble) : OpcodeRow.Statement (.ret ign) := by
  simp only [OpcodeRow.Statement, Instr.row, OpcodeRow.selects, encode, byte_fixed_ends]; decide

theorem OpcodeRow.jp (nnn : Addr12) : OpcodeRow.Statement (.jp nnn) := by
  simp only [OpcodeRow.Statement, Instr.row, OpcodeRow.selects, encode, addr_fixed_first]; decide

theorem OpcodeRow.call (nnn : Addr12) : OpcodeRow.Statement (.call nnn) := by
  simp only [OpcodeRow.Statement, Instr.row, OpcodeRow.selects, encode, addr_fixed_first]; decide

theorem OpcodeRow.seImm (x : RegIdx) (kk : Byte) : OpcodeRow.Statement (.seImm x kk) := by
  simp only [OpcodeRow.Statement, Instr.row, OpcodeRow.selects, encode, byte_fixed_first]; decide

theorem OpcodeRow.sneImm (x : RegIdx) (kk : Byte) : OpcodeRow.Statement (.sneImm x kk) := by
  simp only [OpcodeRow.Statement, Instr.row, OpcodeRow.selects, encode, byte_fixed_first]; decide

theorem OpcodeRow.seReg (x y : RegIdx) (ign : Nibble) : OpcodeRow.Statement (.seReg x y ign) := by
  simp only [OpcodeRow.Statement, Instr.row, OpcodeRow.selects, encode, nibbles_fixed_first]; decide

theorem OpcodeRow.ldImm (x : RegIdx) (kk : Byte) : OpcodeRow.Statement (.ldImm x kk) := by
  simp only [OpcodeRow.Statement, Instr.row, OpcodeRow.selects, encode, byte_fixed_first]; decide

theorem OpcodeRow.addImm (x : RegIdx) (kk : Byte) : OpcodeRow.Statement (.addImm x kk) := by
  simp only [OpcodeRow.Statement, Instr.row, OpcodeRow.selects, encode, byte_fixed_first]; decide

theorem OpcodeRow.ldReg (x y : RegIdx) : OpcodeRow.Statement (.ldReg x y) := by
  simp only [OpcodeRow.Statement, Instr.row, OpcodeRow.selects, encode, nibbles_fixed_ends]; decide

theorem OpcodeRow.orReg (x y : RegIdx) : OpcodeRow.Statement (.orReg x y) := by
  simp only [OpcodeRow.Statement, Instr.row, OpcodeRow.selects, encode, nibbles_fixed_ends]; decide

theorem OpcodeRow.andReg (x y : RegIdx) : OpcodeRow.Statement (.andReg x y) := by
  simp only [OpcodeRow.Statement, Instr.row, OpcodeRow.selects, encode, nibbles_fixed_ends]; decide

theorem OpcodeRow.xorReg (x y : RegIdx) : OpcodeRow.Statement (.xorReg x y) := by
  simp only [OpcodeRow.Statement, Instr.row, OpcodeRow.selects, encode, nibbles_fixed_ends]; decide

theorem OpcodeRow.addReg (x y : RegIdx) : OpcodeRow.Statement (.addReg x y) := by
  simp only [OpcodeRow.Statement, Instr.row, OpcodeRow.selects, encode, nibbles_fixed_ends]; decide

theorem OpcodeRow.subReg (x y : RegIdx) : OpcodeRow.Statement (.subReg x y) := by
  simp only [OpcodeRow.Statement, Instr.row, OpcodeRow.selects, encode, nibbles_fixed_ends]; decide

theorem OpcodeRow.shr (x : RegIdx) (ign : Nibble) : OpcodeRow.Statement (.shr x ign) := by
  simp only [OpcodeRow.Statement, Instr.row, OpcodeRow.selects, encode, nibbles_fixed_ends]; decide

theorem OpcodeRow.subnReg (x y : RegIdx) : OpcodeRow.Statement (.subnReg x y) := by
  simp only [OpcodeRow.Statement, Instr.row, OpcodeRow.selects, encode, nibbles_fixed_ends]; decide

theorem OpcodeRow.shl (x : RegIdx) (ign : Nibble) : OpcodeRow.Statement (.shl x ign) := by
  simp only [OpcodeRow.Statement, Instr.row, OpcodeRow.selects, encode, nibbles_fixed_ends]; decide

theorem OpcodeRow.sneReg (x y : RegIdx) (ign : Nibble) : OpcodeRow.Statement (.sneReg x y ign) := by
  simp only [OpcodeRow.Statement, Instr.row, OpcodeRow.selects, encode, nibbles_fixed_first]; decide

theorem OpcodeRow.ldI (nnn : Addr12) : OpcodeRow.Statement (.ldI nnn) := by
  simp only [OpcodeRow.Statement, Instr.row, OpcodeRow.selects, encode, addr_fixed_first]; decide

theorem OpcodeRow.jpV0 (nnn : Addr12) : OpcodeRow.Statement (.jpV0 nnn) := by
  simp only [OpcodeRow.Statement, Instr.row, OpcodeRow.selects, encode, addr_fixed_first]; decide

theorem OpcodeRow.rnd (x : RegIdx) (kk : Byte) : OpcodeRow.Statement (.rnd x kk) := by
  simp only [OpcodeRow.Statement, Instr.row, OpcodeRow.selects, encode, byte_fixed_first]; decide

theorem OpcodeRow.drw (x y : RegIdx) (n : Nibble) : OpcodeRow.Statement (.drw x y n) := by
  simp only [OpcodeRow.Statement, Instr.row, OpcodeRow.selects, encode, nibbles_fixed_first]; decide

theorem OpcodeRow.skp (x : RegIdx) (ign : Nibble) : OpcodeRow.Statement (.skp x ign) := by
  simp only [OpcodeRow.Statement, Instr.row, OpcodeRow.selects, encode, nibbles_fixed_ends]; decide

theorem OpcodeRow.sknp (x : RegIdx) (ign : Nibble) : OpcodeRow.Statement (.sknp x ign) := by
  simp only [OpcodeRow.Statement, Instr.row, OpcodeRow.selects, encode, nibbles_fixed_ends]; decide

theorem OpcodeRow.ldVxDT (x : RegIdx) : OpcodeRow.Statement (.ldVxDT x) := by
  simp only [OpcodeRow.Statement, Instr.row, OpcodeRow.selects, encode, byte_fixed_ends]; decide

theorem OpcodeRow.ldVxK (x : RegIdx) : OpcodeRow.Statement (.ldVxK x) := by
  simp only [OpcodeRow.Statement, Instr.row, OpcodeRow.selects, encode, byte_fixed_ends]; decide

theorem OpcodeRow.ldDTVx (x : RegIdx) : OpcodeRow.Statement (.ldDTVx x) := by
  simp only [OpcodeRow.Statement, Instr.row, OpcodeRow.selects, encode, byte_fixed_ends]; decide

theorem OpcodeRow.ldSTVx (x : RegIdx) : OpcodeRow.Statement (.ldSTVx x) := by
  simp only [OpcodeRow.Statement, Instr.row, OpcodeRow.selects, encode, byte_fixed_ends]; decide

theorem OpcodeRow.addI (x : RegIdx) : OpcodeRow.Statement (.addI x) := by
  simp only [OpcodeRow.Statement, Instr.row, OpcodeRow.selects, encode, byte_fixed_ends]; decide

theorem OpcodeRow.ldF (x : RegIdx) : OpcodeRow.Statement (.ldF x) := by
  simp only [OpcodeRow.Statement, Instr.row, OpcodeRow.selects, encode, byte_fixed_ends]; decide

theorem OpcodeRow.ldB (x : RegIdx) : OpcodeRow.Statement (.ldB x) := by
  simp only [OpcodeRow.Statement, Instr.row, OpcodeRow.selects, encode, byte_fixed_ends]; decide

theorem OpcodeRow.ldMemVx (x : RegIdx) : OpcodeRow.Statement (.ldMemVx x) := by
  simp only [OpcodeRow.Statement, Instr.row, OpcodeRow.selects, encode, byte_fixed_ends]; decide

theorem OpcodeRow.ldVxMem (x : RegIdx) : OpcodeRow.Statement (.ldVxMem x) := by
  simp only [OpcodeRow.Statement, Instr.row, OpcodeRow.selects, encode, byte_fixed_ends]; decide

end Sys2Proof.Laws
end

