-- ==== Sys2Proof/Laws/Step.lean ====
section
/-! SUPPORT. Everything a step can do, said once. -/

namespace Sys2Proof.Machine

theorem State.fetch_inside {s : State} (h : s.pc.toNat ≤ 4094) : s.fetch = .ok s.wordAtPc := by
  rcases s.fetch_cases with ⟨_, e⟩ | ⟨h', _⟩
  · exact e
  · omega

theorem State.fetch_outside {s : State} (h : 4095 ≤ s.pc.toNat) :
    s.fetch = .error (max s.pc.toNat 4096) := by
  rcases s.fetch_cases with ⟨h', _⟩ | ⟨_, e⟩
  · omega
  · exact e

/-- Every handler answers a next state. -/
theorem exec_answers_next (i : Instr) (s : State) : ∃ t, exec i s = .next t := by
  cases i <;> exact ⟨_, rfl⟩

/-- Everything a step of a running core can do: a fetch fault, a decode fault, or the handler of the
decoded instruction and the end of the cycle. -/
theorem step_cases {s : State} (h : s.halted = false) :
    (4095 ≤ s.pc.toNat ∧
      step s = .next (s.raiseOutOfBounds none (max s.pc.toNat 4096)).nextInput) ∨
    (s.pc.toNat ≤ 4094 ∧ (∃ e, decodeWord s.wordAtPc = .error e) ∧
      step s = .next (s.raise .decodeFault (some s.wordAtPc) 0#16).nextInput) ∨
    (∃ i t, s.AtInstr i ∧ exec i s = .next t ∧ step s = .next t.endCycle) := by
  by_cases hp : 4095 ≤ s.pc.toNat
  · exact .inl ⟨hp, by simp [step, h, State.fetch_outside hp, State.fetchFault, State.endCycle]⟩
  · have hp : s.pc.toNat ≤ 4094 := by omega
    cases hd : decodeWord s.wordAtPc with
    | error e =>
      exact .inr (.inl ⟨hp, ⟨e, rfl⟩,
        by simp [step, h, State.fetch_inside hp, hd, State.decodeFault, State.endCycle]⟩)
    | ok i =>
      obtain ⟨t, e⟩ := exec_answers_next i s
      exact .inr (.inr ⟨i, t, ⟨h, hp, hd⟩, e, by simp [step, h, State.fetch_inside hp, hd, e]⟩)

/-- The step at an instruction, given what its handler answers. -/
theorem State.AtInstr.step_eq {s t : State} {i : Instr} (h : s.AtInstr i) (e : exec i s = .next t) :
    step s = .next t.endCycle := by
  unfold step
  simp [h.running, State.fetch_inside h.inMemory, h.decodes, e]

theorem State.fetchablePc_le (s : State) : s.fetchablePc.toNat ≤ 4094 := by
  unfold State.fetchablePc
  split
  · next hr => have := (inRange_iff _ _).mp hr; omega
  · decide

/-- `withFetchWord` keeps the canonical form of memory. -/
theorem State.wf_withFetchWord {s : State} (nbits w : Nat) (h : s.mem.wf = true) :
    (s.withFetchWord nbits w).mem.wf = true :=
  Memory.wf_writeBytes h (by
    have := s.fetchablePc_le
    simp only [List.length_cons, List.length_nil]; omega)

/-- The word that `withFetchWord` places is the word the next step fetches. -/
theorem State.fetch_withFetchWord {s : State} (w : Word) (h : s.mem.wf = true) :
    (s.withFetchWord 16 w.toNat).fetch = .ok w := by
  have hpc := s.fetchablePc_le
  have hw : BitVec.ofNat 16 (w.toNat % 2 ^ 16) = w := by
    rw [Nat.mod_eq_of_lt w.isLt]; simp
  have e : (s.withFetchWord 16 w.toNat).wordAtPc = w := by
    have r := fun k hk => Memory.read_writeBytes_inside (m := s.mem) (a := s.fetchablePc.toNat) (k := k)
      (vs := [highByte w, lowByte w]) h (by simp only [List.length_cons, List.length_nil]; omega) hk
    have r0 := r 0 (by simp)
    have r1 := r 1 (by simp)
    simp only [Nat.add_zero, List.getElem_cons_zero, List.getElem_cons_succ] at r0 r1
    simp only [State.wordAtPc, State.withFetchWord, Memory.placeWord, hw, r0, r1,
      wordOfBytes_highByte_lowByte]
  rw [State.fetch_inside (by exact hpc), e]

end Sys2Proof.Machine
end

