-- ==== Sys2Proof/Tests/Slice0.lean ====
section
/-! SUPPORT. The model's own tests. Expected results are those of spec/95_test_vectors.md (the vector's
name stands beside each test: S the source's, T and P derived from the spec's rules) or are worked out
by hand from the rule named; the words are written out from the encodings of 30_encoding R95. At the end,
a witness for the hypotheses of every statement that has some. -/

namespace Sys2Proof.Tests

open Sys2Proof.Machine

/-! ## Helpers -/

/-- The reset state with one instruction word at 0x200 (the vectors' convention). -/
def start (w : Nat) : State := State.reset.withFetchWord 16 w

/-- The `V` registers, 0 but for the listed ones. -/
def regs (l : List (Fin 16 × Byte)) : Vector Byte 16 :=
  l.foldl (fun v p => v.set p.1 p.2) (Vector.replicate 16 0)

/-- The key vector with the listed keys down. -/
def keysDown (l : List Nat) : Vector Bool 16 := Vector.ofFn fun k => l.contains k.val

/-- The framebuffer with the listed pixels lit. -/
def screen (l : List (Nat × Nat)) : Framebuffer :=
  l.foldl (fun fb p => fb.flip p.1 p.2) (Vector.replicate 32 0)

/-- One step answers a next state that passes the check. -/
def runs (s : State) (check : State → Bool) : Bool :=
  match step s with
  | .next t => check t
  | .fault _ => false
  | .refused _ => false

/-- The fault record and `pc` (60_exceptions R204), with the core halted. -/
def recorded (t : State) (c : FaultCause) (fpc fir : Word) (valid : Bool) (addr : Word) : Bool :=
  t.halted && t.fcause == c && t.fpc == fpc && t.fir == fir && t.firValid == valid && t.faddr == addr &&
    t.pc == fpc

/-! ## Well-formedness: an ill-formed term for each check, refused -/

theorem smoke_cls_unexamined_bits : (Instr.cls 0xF).isCanonical = false := by decide
theorem smoke_ret_unexamined_bits : (Instr.ret 0x1).isCanonical = false := by decide
theorem smoke_se_unexamined_bits : (Instr.seReg 1 2 7).isCanonical = false := by decide
theorem smoke_sne_unexamined_bits : (Instr.sneReg 0 0 2).isCanonical = false := by decide
theorem smoke_shr_ignored_operand : (Instr.shr 1 2).isCanonical = false := by decide
theorem smoke_shl_ignored_operand : (Instr.shl 1 2).isCanonical = false := by decide
theorem smoke_skp_unexamined_bits : (Instr.skp 5 0).isCanonical = false := by decide
theorem smoke_sknp_unexamined_bits : (Instr.sknp 5 0xF).isCanonical = false := by decide
theorem smoke_canonical_accepted :
    (Instr.skp 5 9).isCanonical = true ∧ (Instr.sknp 5 0xA).isCanonical = true ∧
    (Instr.shr 1 0).isCanonical = true := by decide
theorem smoke_long_rom : Rom.fits (List.replicate 3585 0xFF) = false := by
  rw [Rom.fits, List.length_replicate]; decide
theorem smoke_longest_rom : Rom.fits (List.replicate 3584 0xFF) = true := by
  rw [Rom.fits, List.length_replicate]; decide

/-! ## Decoding: a word for every constructor, from the encodings of R82 and R95, bit 15 first -/

theorem test_decode_control_flow :
    decodeWord 0b0000_0000_1110_1110 = .ok (.ret 0) ∧
    decodeWord 0b0000_1001_1110_1110 = .ok (.ret 9) ∧
    decodeWord 0b0001_0010_0011_0100 = .ok (.jp 0x234) ∧
    decodeWord 0b0010_1010_1011_1100 = .ok (.call 0xABC) ∧
    decodeWord 0b1011_0001_0000_1111 = .ok (.jpV0 0x10F) := by decide

theorem test_decode_skips :
    decodeWord 0b0011_1010_0100_0010 = .ok (.seImm 0xA 0x42) ∧
    decodeWord 0b0100_0010_0010_1011 = .ok (.sneImm 2 0x2B) ∧
    decodeWord 0b0101_0001_0010_0111 = .ok (.seReg 1 2 7) ∧
    decodeWord 0b1001_0011_1000_0000 = .ok (.sneReg 3 8 0) ∧
    decodeWord 0b1110_0101_1001_1110 = .ok (.skp 5 9) ∧
    decodeWord 0b1110_0110_1010_0001 = .ok (.sknp 6 0xA) := by decide

theorem test_decode_register_immediate :
    decodeWord 0b0110_1010_1111_1110 = .ok (.ldImm 0xA 0xFE) ∧
    decodeWord 0b0111_0011_0000_1001 = .ok (.addImm 3 9) := by decide

theorem test_decode_alu :
    decodeWord 0b1000_0001_0010_0000 = .ok (.ldReg 1 2) ∧
    decodeWord 0b1000_0011_0100_0001 = .ok (.orReg 3 4) ∧
    decodeWord 0b1000_0101_0110_0010 = .ok (.andReg 5 6) ∧
    decodeWord 0b1000_0111_1000_0011 = .ok (.xorReg 7 8) ∧
    decodeWord 0b1000_1001_1010_0100 = .ok (.addReg 9 0xA) ∧
    decodeWord 0b1000_1011_1100_0101 = .ok (.subReg 0xB 0xC) ∧
    decodeWord 0b1000_0001_0010_0110 = .ok (.shr 1 2) ∧
    decodeWord 0b1000_1101_1110_0111 = .ok (.subnReg 0xD 0xE) ∧
    decodeWord 0b1000_0001_0000_1110 = .ok (.shl 1 0) := by decide

theorem test_decode_index_and_random :
    decodeWord 0b1010_1111_0000_0101 = .ok (.ldI 0xF05) ∧
    decodeWord 0b1111_0010_0001_1110 = .ok (.addI 2) ∧
    decodeWord 0b1111_0011_0010_1001 = .ok (.ldF 3) ∧
    decodeWord 0b1100_0011_0000_1111 = .ok (.rnd 3 0x0F) := by decide

theorem test_decode_display :
    decodeWord 0b0000_0000_1110_0000 = .ok (.cls 0) ∧
    decodeWord 0b1101_0001_0010_0101 = .ok (.drw 1 2 5) := by decide

theorem test_decode_memory_transfer :
    decodeWord 0b1111_0001_0011_0011 = .ok (.ldB 1) ∧
    decodeWord 0b1111_1001_0101_0101 = .ok (.ldMemVx 9) ∧
    decodeWord 0b1111_1010_0110_0101 = .ok (.ldVxMem 0xA) := by decide

theorem test_decode_timers_and_key_wait :
    decodeWord 0b1111_0001_0000_0111 = .ok (.ldVxDT 1) ∧
    decodeWord 0b1111_0010_0000_1010 = .ok (.ldVxK 2) ∧
    decodeWord 0b1111_0011_0001_0101 = .ok (.ldDTVx 3) ∧
    decodeWord 0b1111_0100_0001_1000 = .ok (.ldSTVx 4) := by decide

theorem test_decode_rejects_by_name :
    decodeWord 0x0000 = .error .undefined0 ∧ decodeWord 0x00E1 = .error .undefined0 ∧
    decodeWord 0x8128 = .error .undefined8 ∧ decodeWord 0x812F = .error .undefined8 ∧
    decodeWord 0xE59F = .error .undefinedE ∧ decodeWord 0xF01F = .error .undefinedF ∧
    decode [0x12] = .error .truncated := by decide

/-- The byte at the lower address is the high byte (R52), and the rest of the bytes is handed back. -/
theorem test_decode_bytes : decode [0x12, 0x34, 0xFF] = .ok (.jp 0x234, [0xFF]) := by decide

theorem test_decode_table_word :
    decodeTableWord 16 0x00EE = some (.ret 0) ∧ decodeTableWord 16 0x0000 = none := by decide

theorem test_encode_words :
    encode (.drw 1 2 5) = 0xD125 ∧ encode (.skp 5 9) = 0xE59E ∧ encode (.jpV0 0x10F) = 0xB10F ∧
    encode (.ldMemVx 9) = 0xF955 ∧ encode (.shl 1 2) = 0x812E := by decide

/-! ## Control flow (T1) -/

theorem test_jp_odd_target : runs (start 0x1201) (fun t => t.pc == 0x201) = true := by decide
theorem test_jp_only : runs (start 0x1234) (fun t => t.pc == 0x234 && t.mem == (start 0x1234).mem) = true := by
  decide
theorem test_call_pushes :
    runs (start 0x2ABC) (fun t => t.stack[0] == 0x202 && t.sp == 1 && t.pc == 0xABC) = true := by decide
theorem test_call_at_capacity :
    runs { start 0x2300 with sp := 16, stack := Vector.replicate 16 0x222 } (fun t =>
      recorded t .stackOverflow 0x200 0x2300 true 0 && t.sp == 16 && t.stack[15] == 0x222) = true := by decide
theorem test_ret_pops :
    runs { start 0x00EE with sp := 16, stack := (Vector.replicate 16 0).set 15 0xABC }
      (fun t => t.sp == 15 && t.pc == 0xABC && t.stack[15] == 0xABC) = true := by decide
theorem test_ret_of_empty_stack :
    runs (start 0x00EE) (fun t => recorded t .stackUnderflow 0x200 0x00EE true 0 && t.sp == 0) = true := by
  decide
theorem test_jpV0_wraps_in_page :
    runs { start 0xB2FF with V := regs [(0, 2), (2, 9)] } (fun t => t.pc == 0x201) = true := by decide
theorem test_jpV0_plain :
    runs { start 0xB300 with V := regs [(0, 0x10)] } (fun t => t.pc == 0x310) = true := by decide

/-! ## Skips (T2) -/

theorem test_seImm_equal : runs { start 0x3A42 with V := regs [(0xA, 0x42)] } (fun t => t.pc == 0x204) = true := by
  decide
theorem test_seImm_different :
    runs { start 0x3A42 with V := regs [(0xA, 0x43)] } (fun t => t.pc == 0x202) = true := by decide
theorem test_sneImm_equal :
    runs { start 0x4A42 with V := regs [(0xA, 0x42)] } (fun t => t.pc == 0x202) = true := by decide
theorem test_sneImm_different :
    runs { start 0x4A42 with V := regs [(0xA, 0x43)] } (fun t => t.pc == 0x204) = true := by decide
theorem test_seReg_alias :
    runs { start 0x5127 with V := regs [(1, 7), (2, 7)] } (fun t => t.pc == 0x204) = true := by decide
theorem test_seReg_different :
    runs { start 0x5120 with V := regs [(1, 7), (2, 8)] } (fun t => t.pc == 0x202) = true := by decide
theorem test_sneReg_equal :
    runs { start 0x9120 with V := regs [(1, 7), (2, 7)] } (fun t => t.pc == 0x202) = true := by decide
theorem test_sneReg_different :
    runs { start 0x9120 with V := regs [(1, 7), (2, 8)] } (fun t => t.pc == 0x204) = true := by decide
theorem test_skp_other_key_down :
    runs { start 0xE59E with V := regs [(5, 3)], inputs := [⟨keysDown [4], 0⟩] } (fun t => t.pc == 0x202) =
      true := by decide
theorem test_skp_key_above_fifteen :
    runs { start 0xE59E with V := regs [(5, 0x10)], inputs := [⟨keysDown [0], 0⟩] }
      (fun t => recorded t .keyIndexFault 0x200 0xE59E true 0x10) = true := by decide
theorem test_sknp_key_down :
    runs { start 0xE5A1 with V := regs [(5, 3)], inputs := [⟨keysDown [3], 0⟩] } (fun t => t.pc == 0x202) =
      true := by decide
theorem test_sknp_alias_no_key :
    runs { start 0xE5F1 with V := regs [(5, 3)], inputs := [⟨keysDown [], 0⟩] } (fun t => t.pc == 0x204) =
      true := by decide

/-! ## Registers and immediates (T3) -/

theorem test_ldImm_flag_register : runs (start 0x6F07) (fun t => t.v 0xF == 7 && t.pc == 0x202) = true := by decide
theorem test_addImm_no_carry_flag :
    runs { start 0x7001 with V := regs [(0, 0xFF), (0xF, 0x55)] } (fun t =>
      t.v 0 == 0 && t.v 0xF == 0x55 && t.pc == 0x202) = true := by decide
theorem test_addImm_flag_register :
    runs { start 0x7FFF with V := regs [(0xF, 2)] } (fun t => t.v 0xF == 1) = true := by decide

/-! ## ALU (T4, S4 to S8) -/

theorem test_ldReg :
    runs { start 0x8120 with V := regs [(1, 1), (2, 0xAB), (0xF, 9)] } (fun t =>
      t.v 1 == 0xAB && t.v 2 == 0xAB && t.v 0xF == 9 && t.pc == 0x202) = true := by decide
theorem test_orReg :
    runs { start 0x8121 with V := regs [(1, 0xF0), (2, 0x0F), (0xF, 9)] } (fun t =>
      t.v 1 == 0xFF && t.v 0xF == 9 && t.pc == 0x202) = true := by decide
theorem test_andReg :
    runs { start 0x8122 with V := regs [(1, 0xF0), (2, 0x3C), (0xF, 9)] } (fun t =>
      t.v 1 == 0x30 && t.v 0xF == 9 && t.pc == 0x202) = true := by decide
theorem test_xorReg :
    runs { start 0x8123 with V := regs [(1, 0xF0), (2, 0x3C), (0xF, 9)] } (fun t =>
      t.v 1 == 0xCC && t.v 0xF == 9 && t.pc == 0x202) = true := by decide
theorem test_addReg_carry :
    runs { start 0x8124 with V := regs [(1, 0x6E), (2, 0xC8)] } (fun t =>
      t.v 1 == 0x36 && t.v 0xF == 1 && t.pc == 0x202) = true := by decide
theorem test_addReg_flag_remains :
    runs { start 0x8F14 with V := regs [(1, 1), (0xF, 0x10)] } (fun t => t.v 0xF == 0) = true := by decide
theorem test_subReg_equal_is_no_borrow :
    runs { start 0x8125 with V := regs [(1, 5), (2, 5)] } (fun t =>
      t.v 1 == 0 && t.v 0xF == 1 && t.pc == 0x202) = true := by decide
theorem test_subReg_flag_operand_read_first :
    runs { start 0x81F5 with V := regs [(1, 5), (0xF, 7)] } (fun t => t.v 1 == 0xFE && t.v 0xF == 0) = true := by
  decide
theorem test_shr_ignores_y :
    runs { start 0x8126 with V := regs [(1, 3), (2, 0x80)] } (fun t =>
      t.v 1 == 1 && t.v 2 == 0x80 && t.v 0xF == 1 && t.pc == 0x202) = true := by decide
theorem test_shr_flag_register :
    runs { start 0x8F06 with V := regs [(0xF, 2)] } (fun t => t.v 0xF == 0) = true := by decide
theorem test_subnReg_borrow :
    runs { start 0x8127 with V := regs [(1, 5), (2, 4)] } (fun t =>
      t.v 1 == 0xFF && t.v 0xF == 0 && t.pc == 0x202) = true := by decide
theorem test_subnReg_flag_register :
    runs { start 0x8F17 with V := regs [(1, 5), (0xF, 3)] } (fun t => t.v 0xF == 1) = true := by decide
theorem test_shl_carry :
    runs { start 0x810E with V := regs [(1, 0x81)] } (fun t =>
      t.v 1 == 2 && t.v 0xF == 1 && t.pc == 0x202) = true := by decide
theorem test_shl_no_carry :
    runs { start 0x810E with V := regs [(1, 0x40), (0xF, 1)] } (fun t =>
      t.v 1 == 0x80 && t.v 0xF == 0) = true := by decide

/-! ## Index and random (T5, T6) -/

theorem test_ldI : runs (start 0xAFFF) (fun t => t.I == 0xFFF && t.pc == 0x202) = true := by decide
theorem test_addI_wraps :
    runs { start 0xF11E with I := 0xFFFF, V := regs [(1, 2), (0xF, 7)] } (fun t =>
      t.I == 1 && t.v 0xF == 7 && t.pc == 0x202) = true := by decide
theorem test_ldF_digit :
    runs { start 0xF129 with V := regs [(1, 0xF)] } (fun t => t.I == 0x4B && t.pc == 0x202) = true := by decide
theorem test_ldF_not_masked :
    runs { start 0xF129 with V := regs [(1, 0xFF)] } (fun t => t.I == 0x4FB) = true := by decide
theorem test_rnd_masks :
    runs { start 0xC10F with inputs := [⟨keysDown [], 0xA7⟩] } (fun t => t.v 1 == 7 && t.pc == 0x202) = true := by
  decide

/-! ## Display (T7, S11, S15, S16) -/

theorem test_drw_glyph :
    runs { start 0xD015 with I := 5, V := regs [(0, 10), (1, 5), (0xF, 1)] } (fun t =>
      t.fb == screen [(12, 5), (11, 6), (12, 6), (12, 7), (12, 8), (11, 9), (12, 9), (13, 9)] &&
        t.v 0xF == 0 && t.I == 5 && t.pc == 0x202) = true := by decide
/-- The row F0 is the first of the glyph of 0; columns beyond 63 are clipped and a lit pixel collides. -/
theorem test_drw_clips_and_collides :
    runs { start 0xD011 with V := regs [(0, 62)], fb := screen [(63, 0), (0, 0)] } (fun t =>
      t.fb == screen [(62, 0), (0, 0)] && t.v 0xF == 1) = true := by decide
theorem test_cls_alias :
    runs { start 0x0FE0 with fb := screen [(0, 0), (5, 5), (63, 31)], V := regs [(0xF, 1)] } (fun t =>
      t.fb == screen [] && t.v 0xF == 1 && t.pc == 0x202) = true := by decide

/-! ## Memory transfer (T8, S9, S10) -/

theorem test_ldB_243 :
    runs { start 0xF133 with I := 0x300, V := regs [(1, 243)] } (fun t =>
      t.mem.read 0x300 == 2 && t.mem.read 0x301 == 4 && t.mem.read 0x302 == 3 && t.I == 0x300 &&
        t.pc == 0x202) = true := by decide
theorem test_ldB_past_the_end :
    runs { start 0xF133 with I := 0xFFE, V := regs [(1, 243)] } (fun t =>
      recorded t .memOutOfBounds 0x200 0xF133 true 0x1000 && t.mem == (start 0xF133).mem) = true := by decide
theorem test_ldMemVx_first_three :
    runs { start 0xF255 with I := 0xFFD, V := regs [(0, 0x11), (1, 0x22), (2, 0x33), (3, 0x44)] } (fun t =>
      t.mem.read 0xFFC == 0 && t.mem.read 0xFFD == 0x11 && t.mem.read 0xFFE == 0x22 &&
        t.mem.read 0xFFF == 0x33 && t.I == 0xFFD && t.pc == 0x202) = true := by decide
theorem test_ldMemVx_past_the_end :
    runs { start 0xF255 with I := 0xFFE, V := regs [(0, 0x11)] } (fun t =>
      recorded t .memOutOfBounds 0x200 0xF255 true 0x1000 && t.mem.read 0xFFE == 0) = true := by decide
/-- The bytes at 5, 6 and 7 are the first three of the glyph of 1. -/
theorem test_ldVxMem_from_font :
    runs { start 0xF265 with I := 5, V := regs [(3, 9)] } (fun t =>
      t.v 0 == 0x20 && t.v 1 == 0x60 && t.v 2 == 0x20 && t.v 3 == 9 && t.I == 5 && t.pc == 0x202) = true := by
  decide
theorem test_ldVxMem_index_beyond_memory :
    runs { start 0xF065 with I := 0x1001, V := regs [(0, 9)] } (fun t =>
      recorded t .memOutOfBounds 0x200 0xF065 true 0x1001 && t.v 0 == 9) = true := by decide

/-! ## Timers and keys (T9, S12, S13, S18) -/

theorem test_ldVxDT_reads_before_tick :
    runs { start 0xF107 with DT := 9 } (fun t => t.v 1 == 9 && t.DT == 8 && t.pc == 0x202) = true := by decide
theorem test_ldDTVx_ticks_at_once :
    runs { start 0xF015 with V := regs [(0, 10)] } (fun t => t.DT == 9 && t.ST == 0 && t.pc == 0x202) = true := by
  decide
theorem test_ldSTVx_ticks_at_once :
    runs { start 0xF018 with V := regs [(0, 1)] } (fun t => t.ST == 0 && t.pc == 0x202) = true := by decide
theorem test_ldVxK_takes_the_least :
    runs { start 0xF20A with inputs := [⟨keysDown [3, 7], 0⟩] } (fun t => t.v 2 == 3 && t.pc == 0x202) = true := by
  decide
theorem test_ldVxK_waits :
    runs { start 0xF20A with V := regs [(2, 0x55)], DT := 7, inputs := [⟨keysDown [], 0⟩] } (fun t =>
      t.v 2 == 0x55 && t.pc == 0x200 && t.DT == 6) = true := by decide

/-! ## The cycle -/

theorem test_timers_tick_in_any_cycle :
    runs { start 0x6000 with DT := 3, ST := 1 } (fun t => t.DT == 2 && t.ST == 0) = true := by decide
theorem test_undefined_word_faults_without_tick :
    runs { start 0x0000 with DT := 3 } (fun t => recorded t .decodeFault 0x200 0 true 0 && t.DT == 3) = true := by
  decide
/-- T1: the fetch at 0xFFF needs the byte at 0x1000. -/
theorem test_fetch_past_the_end :
    runs { State.reset with pc := 0xFFF } (fun t => recorded t .memOutOfBounds 0xFFF 0 false 0x1000) = true := by
  decide
theorem test_halted_core_stays :
    runs { start 0x6005 with halted := true, DT := 3 } (fun t => t.v 0 == 0 && t.DT == 3 && t.pc == 0x200) =
      true := by decide
/-- With no input placed the inputs are free, and the key wait still answers a next state. -/
theorem test_free_inputs_run : runs (start 0xF20A) (fun _ => true) = true := by decide
/-- S14: a ROM of one instruction. -/
theorem test_first_step_of_a_rom :
    (match State.resetWith [0x12, 0x34] with
      | .next s => runs s fun t => t.pc == 0x234
      | .fault _ => false
      | .refused _ => false) = true := by decide

/-! ## Witnesses: a state and operands that meet the hypotheses of each statement, clause by clause -/

/-- The running state with the listed registers that is about to run the word `w`. -/
def ready (w : Nat) (l : List (Fin 16 × Byte)) : State := { start w with V := regs l }

/-- `ready` with the listed keys down in the coming cycle. -/
def pressing (w : Nat) (l : List (Fin 16 × Byte)) (ks : List Nat) : State :=
  { ready w l with inputs := [⟨keysDown ks, 0x5A⟩] }

theorem witness_EncodeOfDecodeIsTheWord : decodeWord 0x51A7 = .ok (.seReg 1 0xA 7) := by decide

theorem witness_DispatchAgreesWithTheOpcodeMap :
    (⟨0xF0FF, 0xF065⟩ : OpcodeRow) ∈ opcodeMap ∧ (0xF965#16 &&& 0xF0FF = 0xF065) ∧
    decodeWord 0xF965 = .ok (.ldVxMem 9) ∧ (Instr.ldVxMem 9).row = ⟨0xF0FF, 0xF065⟩ := by decide

theorem witness_AliasWordsExecuteAsTheCanonicalWord :
    ¬ (Instr.skp 5 0).faultsIn (ready 0xE50E [(5, 15)]) ∧ ¬ (Instr.seReg 1 2 7).faultsIn (ready 0x5127 []) ∧
    ¬ (Instr.ret 1).faultsIn { start 0x01EE with sp := 1 } := by
  show ¬ (15 < _) ∧ ¬ False ∧ ¬ (_ = 0)
  decide

theorem witness_StepRunsTheDecodedInstruction : (start 0x51A7).AtInstr (.seReg 1 0xA 7) :=
  ⟨by decide, by decide, by decide⟩

theorem witness_HaltedStepChangesNothing : ({ start 0x6005 with halted := true } : State).halted = true := by decide

theorem witness_FetchOutsideMemoryHalts :
    let s : State := { State.reset with pc := 4095 }
    let u : State := { State.reset with pc := 4098 }
    s.halted = false ∧ 4095 ≤ s.pc.toNat ∧ u.halted = false ∧ 4095 ≤ u.pc.toNat := by decide

theorem witness_UndefinedWordHalts :
    (start 0x812F).halted = false ∧ (start 0x812F).pc.toNat ≤ 4094 ∧
    decodeWord (start 0x812F).wordAtPc = .error .undefined8 := by decide

theorem witness_FaultingCycleLeavesTheStateUntouched :
    (start 0x00EE).halted = false ∧ ∃ t, step (start 0x00EE) = .next t ∧ t.halted = true :=
  ⟨by decide, _, rfl, by decide⟩

theorem witness_CycleFaultsExactlyWhenTheRulesSay :
    (start 0x00EE).halted = false ∧ (start 0x00EE).cycleFaults ∧
    (start 0x1200).halted = false ∧ ¬ (start 0x1200).cycleFaults := by
  refine ⟨by decide, .inr ?_, by decide, ?_⟩
  · rw [show decodeWord (start 0x00EE).wordAtPc = .ok (.ret 0) by decide]; exact rfl
  · unfold State.cycleFaults
    rw [show decodeWord (start 0x1200).wordAtPc = .ok (.jp 0x200) by decide]
    rintro (h | h)
    · exact absurd h (by decide)
    · exact h

theorem witness_InstructionFaultsExactlyWhenTheRulesSay :
    (start 0x00EE).halted = false ∧ (Instr.ret 0).faultsIn (start 0x00EE) ∧
    ¬ (Instr.jp 0x200).faultsIn (start 0x1200) := ⟨by decide, rfl, id⟩

theorem witness_TimersFallByOneInACompletedCycle :
    (ready 0xF015 [(0, 10)]).AtInstr (.ldDTVx 0) ∧ ¬ (Instr.ldDTVx 0).faultsIn (ready 0xF015 [(0, 10)]) ∧
    (ready 0xF018 [(0, 10)]).AtInstr (.ldSTVx 0) ∧ ¬ (Instr.ldSTVx 0).faultsIn (ready 0xF018 [(0, 10)]) ∧
    ({ start 0x1200 with DT := 3, ST := 1 } : State).AtInstr (.jp 0x200) :=
  ⟨⟨by decide, by decide, by decide⟩, id, ⟨by decide, by decide, by decide⟩, id,
    ⟨by decide, by decide, by decide⟩⟩

theorem witness_CallPushesTheReturnAddress :
    ({ start 0x2ABC with sp := 15 } : State).sp.val < 16 ∧ ({ start 0x2ABC with sp := 16 } : State).sp.val = 16 := by
  decide

theorem witness_ReturnPopsTheReturnAddress :
    0 < ({ start 0x00EE with sp := 1 } : State).sp.val ∧ (start 0x00EE).sp.val = 0 := by decide

theorem witness_StackFaultsAreTaken :
    ({ start 0x2ABC with sp := 16 } : State).sp.val = 16 ∧ (start 0x00EE).sp.val = 0 := by decide

theorem witness_CallThenReturnComesBack :
    (start 0x2ABC).sp.val < 16 ∧
    ∃ t u : State, exec (.call 0xABC) (start 0x2ABC) = .next t ∧ u.sp = t.sp ∧ u.stack = t.stack ∧ u.sp.val = 1 :=
  ⟨by decide, _, _, rfl, rfl, rfl, by decide⟩

theorem witness_ProgramCounterFollowsTheTable :
    ¬ (Instr.jpV0 0x2FF).faultsIn (start 0xB2FF) ∧ (Instr.ret 0).faultsIn (start 0x00EE) := ⟨id, rfl⟩

theorem witness_CompareSkipsByFourOrTwo :
    (ready 0x3A42 [(0xA, 0x42)]).v 0xA = 0x42 ∧ (ready 0x3A42 []).v 0xA ≠ 0x42 ∧
    (ready 0x5120 []).v 1 = (ready 0x5120 []).v 2 ∧ (ready 0x5120 [(1, 7)]).v 1 ≠ (ready 0x5120 [(1, 7)]).v 2 := by
  decide

theorem witness_KeySkipsFollowTheKey :
    let s := pressing 0xE59E [(5, 15)] [15]
    let u := pressing 0xE59E [(5, 15)] [3]
    (∃ h : (s.v 5).toNat < 16, s.input.keys[(s.v 5).toNat] = true) ∧
    (∃ h : (u.v 5).toNat < 16, u.input.keys[(u.v 5).toNat] = false) :=
  ⟨⟨by decide, by decide⟩, ⟨by decide, by decide⟩⟩

theorem witness_KeyIndexAboveFifteenFaults :
    15 < ((ready 0xE59E [(5, 16)]).v 5).toNat ∧ 15 < ((ready 0xE5A1 [(5, 0xFF)]).v 5).toNat := by decide

theorem witness_AddDeliversSumAndCarry : (1 : RegIdx) ≠ flagReg := by decide

theorem witness_SubtractDeliversDifferenceAndNoBorrow : (0 : RegIdx) ≠ flagReg := by decide

theorem witness_ShiftsMoveOneBitIntoTheFlag : (0xE : RegIdx) ≠ flagReg := by decide

/-- The state of T7 in which the second pixel of the first glyph row falls on a lit pixel. -/
def drawing : State := { start 0xD011 with V := regs [(0, 62)], fb := screen [(63, 0)] }

theorem witness_DrawXorsTheClippedSprite_forms :
    (0 : Nibble).toNat = 0 ∧ ({ drawing with I := 4095 } : State).I.toNat + (1 : Nibble).toNat ≤ 4096 := by decide

theorem witness_DrawXorsTheClippedSprite_collision :
    ∃ px py, px ≤ 63 ∧ py ≤ 31 ∧ drawing.fb.pixel px py = true ∧
      spriteBit (drawing.spriteRows 1) ((drawing.v 0).toNat % 64) ((drawing.v 1).toNat % 32) px py = true :=
  ⟨63, 0, by decide, by decide, by decide, by decide⟩

theorem witness_DrawXorsTheClippedSprite_no_collision :
    ∀ px py, px ≤ 63 → py ≤ 31 → (start 0xD011).fb.pixel px py = true →
      spriteBit ((start 0xD011).spriteRows 1) (((start 0xD011).v 0).toNat % 64)
        (((start 0xD011).v 1).toNat % 32) px py = false := by
  intro px py _ _ h
  simp [start, State.withFetchWord, State.reset, Framebuffer.pixel] at h

theorem witness_DrawingTwiceRestoresTheScreen :
    ∃ t u : State, exec (.drw 0 1 1) (start 0xD011) = .next t ∧ u.fb = t.fb ∧ u.I = (start 0xD011).I ∧
      u.v 0 = (start 0xD011).v 0 ∧ u.v 1 = (start 0xD011).v 1 ∧
      (∀ a, u.mem.read a = (start 0xD011).mem.read a) ∧
      (∀ px py, px ≤ 63 → py ≤ 31 → (start 0xD011).fb.pixel px py = false) ∧
      (∃ px py, px ≤ 63 ∧ py ≤ 31 ∧
        spriteBit ((start 0xD011).spriteRows 1) (((start 0xD011).v 0).toNat % 64)
          (((start 0xD011).v 1).toNat % 32) px py = true) := by
  refine ⟨_, _, rfl, rfl, by decide, by decide, by decide, fun _ => rfl, ?_,
    ⟨0, 0, by decide, by decide, by decide⟩⟩
  intro px py _ _
  simp [start, State.withFetchWord, State.reset, Framebuffer.pixel]

theorem witness_BcdStoresTheThreeDigits :
    let s : State := { start 0xF133 with I := 4093 }
    let u : State := { start 0xF133 with I := 4094 }
    s.mem.wf = true ∧ s.I.toNat + 2 ≤ 4095 ∧ u.I.toNat + 2 > 4095 := by decide

theorem witness_DumpStoresTheFirstRegisters :
    let s : State := { start 0xF255 with I := 4093 }
    s.mem.wf = true ∧ s.I.toNat + (2 : RegIdx).toNat ≤ 4095 := by decide

theorem witness_LoadFillsTheFirstRegisters :
    let s : State := { start 0xF265 with I := 4093 }
    let u : State := { start 0xF265 with I := 4094 }
    s.I.toNat + (2 : RegIdx).toNat ≤ 4095 ∧ u.I.toNat + (2 : RegIdx).toNat > 4095 := by decide

theorem witness_DumpThenLoadRoundTrips :
    let s : State := { ready 0xF255 [(0, 0x11), (2, 0x33)] with I := 4093 }
    s.mem.wf = true ∧ s.I.toNat + (2 : RegIdx).toNat ≤ 4095 ∧
    ∃ t u : State, exec (.ldMemVx 2) s = .next t ∧ u.I = s.I ∧ ∀ a, u.mem.read a = t.mem.read a :=
  ⟨by decide, by decide, _, _, rfl, by decide, fun _ => rfl⟩

theorem witness_AccessOutsideMemoryFaults :
    let s : State := { State.reset with I := 4094 }
    (Instr.drw 0 1 3).faultsIn s ∧ (Instr.ldB 1).faultsIn s ∧ (Instr.ldMemVx 2).faultsIn s ∧
    (Instr.ldVxMem 2).faultsIn s := by
  show (0 < _ ∧ 4095 < _) ∧ 4095 < _ ∧ 4095 < _ ∧ 4095 < _
  decide

theorem witness_FetchSeesTheStoredBytes :
    let s : State := { ready 0xF155 [(0, 0x12), (1, 0x08)] with I := 0x208 }
    s.mem.wf = true ∧ s.I.toNat + (1 : RegIdx).toNat ≤ 4095 ∧
    ∃ t u : State, exec (.ldMemVx 1) s = .next t ∧ (0 : RegIdx).toNat < (1 : RegIdx).toNat ∧ u.mem = t.mem ∧
      u.pc.toNat = s.I.toNat + (0 : RegIdx).toNat := by
  refine ⟨by decide, by decide, _, ({ State.reset with mem := _, pc := 0x208 } : State), rfl, by decide, rfl, by decide⟩

theorem witness_TimerTransfers :
    (start 0xF107).AtInstr (.ldVxDT 1) ∧ (start 0xF115).AtInstr (.ldDTVx 1) ∧
    (start 0xF118).AtInstr (.ldSTVx 1) :=
  ⟨⟨by decide, by decide, by decide⟩, ⟨by decide, by decide, by decide⟩, ⟨by decide, by decide, by decide⟩⟩

theorem witness_KeyWaitTakesTheLeastKey :
    let s := pressing 0xF20A [] [15]
    let u := pressing 0xF20A [] [0, 15]
    let w := pressing 0xF20A [] []
    (s.input.keys[(15 : Fin 16)] = true ∧ ∀ j : Fin 16, j < 15 → s.input.keys[j] = false) ∧
    (u.input.keys[(0 : Fin 16)] = true ∧ ∀ j : Fin 16, j < 0 → u.input.keys[j] = false) ∧
    ∀ k : Fin 16, w.input.keys[k] = false := by decide

theorem witness_WaitingCycleTicksTheTimers :
    (pressing 0xF20A [] []).AtInstr (.ldVxK 2) ∧ ∀ k : Fin 16, (pressing 0xF20A [] []).input.keys[k] = false :=
  ⟨⟨by decide, by decide, by decide⟩, by decide⟩

theorem witness_EveryInstructionKeepsItsFrame :
    ¬ (Instr.ldB 1).faultsIn (start 0xF133) ∧ (Instr.ret 0).faultsIn (start 0x00EE) := by
  show ¬ (4095 < _) ∧ _ = 0
  decide

/-- The same random byte with other keys, and the same keys with another random byte. -/
theorem witness_InputsMatterToFourInstructionsOnly :
    let s := pressing 0xC10F [] [3]
    let l : List HostInput := [⟨keysDown [4], 0x5A⟩]
    let l' : List HostInput := [⟨keysDown [3], 0xA5⟩]
    ({ s with inputs := l, cycle := 7 } : State).input.rnd = s.input.rnd ∧
    ({ s with inputs := l', cycle := 7 } : State).input.keys = s.input.keys ∧
    (∃ t, exec (.rnd 1 0x0F) s = .next t) ∧ ∃ t, exec (.skp 5 9) s = .next t :=
  ⟨by decide, by decide, ⟨_, rfl⟩, ⟨_, rfl⟩⟩

theorem witness_StepKeepsTheInvariant : (start 0x2ABC).Inv ∧ ∃ t, step (start 0x2ABC) = .next t :=
  ⟨by constructor <;> decide, _, rfl⟩

theorem witness_ResetPlacesTheRomAndTheFont :
    (List.replicate 3584 (0xFF : Byte)).length ≤ 3584 ∧ ([] : List Byte).length ≤ 3584 ∧
    3583 < (List.replicate 3584 (0xFF : Byte)).length ∧ 79 < font.length := by
  rw [List.length_replicate]; decide

theorem witness_ResetRefusesALongRom : 3584 < (List.replicate 3585 (0xFF : Byte)).length := by
  rw [List.length_replicate]; decide

/-- Images of two bytes, of one and of none: the last one's first word decodes to no instruction. -/
theorem witness_FirstStepRunsTheFirstRomWord :
    (∃ s, State.resetWith [0x12, 0x34] = .next s) ∧ decodeWord (wordOfBytes 0x12 0x34) = .ok (.jp 0x234) ∧
    (∃ s, State.resetWith [0x60] = .next s) ∧ decodeWord (wordOfBytes 0x60 0) = .ok (.ldImm 0 0) ∧
    (∃ s, State.resetWith [] = .next s) ∧ decodeWord (wordOfBytes 0 0) = .error .undefined0 :=
  ⟨⟨_, rfl⟩, by decide, ⟨_, rfl⟩, by decide, ⟨_, rfl⟩, by decide⟩

theorem witness_SelfJumpIdles :
    (start 0x1200).AtInstr (.jp 0x200) ∧ (start 0x1200).pc.toNat = (0x200 : Addr12).toNat :=
  ⟨⟨by decide, by decide, by decide⟩, by decide⟩

end Sys2Proof.Tests
end

section
/-! Control flow (41_control_flow): what the jumps do to the state. -/

namespace Sys2Proof.Machine

@[simp] theorem exec_jp (nnn : Addr12) (s : State) :
    exec (.jp nnn) s = .next (s.jump (addrOperand nnn)) := rfl

/-- Settles O17: `JP nnn` is one update of `pc`, to the operand widened without a change of its value,
and such an update keeps the frame. -/
theorem jumpGoesExactlyToTheAddress : Obligations.JumpGoesExactlyToTheAddress := by
  intro nnn s
  have target : (s.jump (addrOperand nnn)).pc.toNat = nnn.toNat := addrOperand_toNat nnn
  exact ⟨s.jump (addrOperand nnn), exec_jp nnn s, target, OnlyChanged.of_jump s _⟩

end Sys2Proof.Machine
end

section
/-! Conditional skips (42_conditional_skip): what the compares do to the state. -/

namespace Sys2Proof.Machine

@[simp] theorem exec_seImm (x : RegIdx) (kk : Byte) (s : State) :
    exec (.seImm x kk) s = .next (s.skipIf (s.v x == kk)) := rfl

@[simp] theorem exec_sneImm (x : RegIdx) (kk : Byte) (s : State) :
    exec (.sneImm x kk) s = .next (s.skipIf (s.v x != kk)) := rfl

@[simp] theorem exec_seReg (x y : RegIdx) (ign : Nibble) (s : State) :
    exec (.seReg x y ign) s = .next (s.skipIf (s.v x == s.v y)) := rfl

@[simp] theorem exec_sneReg (x y : RegIdx) (ign : Nibble) (s : State) :
    exec (.sneReg x y ign) s = .next (s.skipIf (s.v x != s.v y)) := rfl

/-- R135, once for every skip: an instruction that ends in `skipIf c` goes on by 4 where `c` holds and by
2 where it fails, and keeps the frame. -/
theorem exec_by_four_or_two {i : Instr} {s : State} {c : Bool} {taken notTaken : Prop}
    (ends : exec i s = .next (s.skipIf c)) (holds : taken → c = true) (fails : notTaken → c = false) :
    ∃ t, exec i s = .next t ∧
      (taken → t.pc = s.pc + 4) ∧ (notTaken → t.pc = s.pc + 2) ∧ OnlyChanged [] s t := by
  refine ⟨s.skipIf c, ends, fun h => ?_, fun h => ?_, OnlyChanged.of_skipIf s c⟩
  · simp [holds h]
  · simp [fails h]

/-- Settles O24: each compare ends in one skip on the Boolean equality of its operands, or on the negation
of it. -/
theorem compareSkipsByFourOrTwo : Obligations.CompareSkipsByFourOrTwo := by
  intro x y kk ign s
  refine ⟨?seImm, ?sneImm, ?seReg, ?sneReg⟩
  case seImm => exact exec_by_four_or_two (exec_seImm x kk s) beq_iff_eq.mpr beq_eq_false_iff_ne.mpr
  case sneImm => exact exec_by_four_or_two (exec_sneImm x kk s) bne_iff_ne.mpr bne_eq_false_iff_eq.mpr
  case seReg => exact exec_by_four_or_two (exec_seReg x y ign s) beq_iff_eq.mpr beq_eq_false_iff_ne.mpr
  case sneReg => exact exec_by_four_or_two (exec_sneReg x y ign s) bne_iff_ne.mpr bne_eq_false_iff_eq.mpr

end Sys2Proof.Machine
end

section
/-! Register-immediate instructions (43_register_immediate): what the load and the addition do to the
state. -/

namespace Sys2Proof.Machine

@[simp] theorem exec_ldImm (x : RegIdx) (kk : Byte) (s : State) :
    exec (.ldImm x kk) s = .next (s.setV x kk).advance := rfl

@[simp] theorem exec_addImm (x : RegIdx) (kk : Byte) (s : State) :
    exec (.addImm x kk) s = .next (s.setV x (s.v x + kk)).advance := rfl

/-- Once for every instruction whose one effect is a register: after a write of `b` to `Vx`, that register
holds `b`, `pc` is on by 2, and no other register (so no flag) nor any other part of the state differs. -/
theorem exec_by_writing_one_register {i : Instr} {s : State} {x : RegIdx} {b : Byte}
    (ends : exec i s = .next (s.setV x b).advance) :
    ∃ t, exec i s = .next t ∧ t.v x = b ∧ t.pc = s.pc + 2 ∧ OnlyChanged [.v x] s t := by
  refine ⟨(s.setV x b).advance, ends, ?written, ?advanced, OnlyChanged.of_setV s x b⟩
  case written => rw [State.v_advance, State.v_setV_same]
  case advanced => simp only [State.advance_pc, State.setV_pc, BitVec.ofNat_eq_ofNat]

/-- Settles O27: both instructions end in one register write, of the immediate or of the byte sum, and byte
addition is addition modulo 256. -/
theorem immediateLoadAndAdd : Obligations.ImmediateLoadAndAdd := by
  intro x kk s
  refine ⟨exec_by_writing_one_register (exec_ldImm x kk s), ?add⟩
  case add =>
    obtain ⟨t, ends, sum, advanced, frame⟩ := exec_by_writing_one_register (exec_addImm x kk s)
    exact ⟨t, ends, by rw [sum, BitVec.toNat_add], advanced, frame⟩

end Sys2Proof.Machine
end

section
/-! Register-to-register instructions (44_alu): what the copy does to the state. -/

namespace Sys2Proof.Machine

@[simp] theorem exec_ldReg (x y : RegIdx) (s : State) :
    exec (.ldReg x y) s = .next (s.setV x (s.v y)).advance := rfl

/-- Settles O28: the copy ends in one register write, of the byte `Vy` held before; equal registers and `VF`
are no separate cases. -/
theorem registerCopy : Obligations.RegisterCopy := by
  intro x y s
  exact exec_by_writing_one_register (exec_ldReg x y s)

end Sys2Proof.Machine
end

section
/-! Index and addressing (45_index_addressing): what a write of `I` does to the state. -/

namespace Sys2Proof.Machine

@[simp] theorem exec_ldI (nnn : Addr12) (s : State) :
    exec (.ldI nnn) s = .next (s.setI (addrOperand nnn)).advance := rfl

/-- Once for every instruction whose one effect is the index: after a write of `a` to `I`, `I` holds `a`,
`pc` is on by 2, and no register (so no flag) nor any other part of the state differs. -/
theorem exec_by_writing_the_index {i : Instr} {s : State} {a : Word}
    (ends : exec i s = .next (s.setI a).advance) :
    ∃ t, exec i s = .next t ∧ t.I = a ∧ t.pc = s.pc + 2 ∧ OnlyChanged [.index] s t := by
  refine ⟨(s.setI a).advance, ends, ?written, ?advanced, OnlyChanged.of_setI s a⟩
  case written => rw [State.advance_I, State.setI_I]
  case advanced => simp only [State.advance_pc, State.setI_pc, BitVec.ofNat_eq_ofNat]

/-- Settles O33: the load ends in one write of `I`, of the 12-bit operand widened to 16 bits without a
change of its value, so bits 15..12 of `I` are 0. -/
theorem loadIndexImmediate : Obligations.LoadIndexImmediate := by
  intro nnn s
  obtain ⟨t, ends, written, advanced, frame⟩ := exec_by_writing_the_index (exec_ldI nnn s)
  exact ⟨t, ends, by rw [written, addrOperand_toNat], advanced, frame⟩

end Sys2Proof.Machine
end

section
/-! Memory transfer (48_memory_transfer): what a store at `I` does to the state. -/

namespace Sys2Proof.Machine

@[simp] theorem exec_ldB (x : RegIdx) (s : State) :
    exec (.ldB x) s = .next (s.storeAtI (.ldB x) (bcdDigits (s.v x))) := rfl

@[simp] theorem bcdDigits_length (b : Byte) : (bcdDigits b).length = 3 := rfl

/-- Each digit is below 256, so the byte that is stored holds the digit itself. -/
theorem bcdDigits_toNat (b : Byte) :
    (bcdDigits b)[0].toNat = b.toNat / 100 ∧ (bcdDigits b)[1].toNat = b.toNat / 10 % 10 ∧
      (bcdDigits b)[2].toNat = b.toNat % 10 := by
  have := b.isLt
  exact ⟨Nat.mod_eq_of_lt (by omega), Nat.mod_eq_of_lt (by omega), Nat.mod_eq_of_lt (by omega)⟩

/-- Once for every instruction that ends in a store at `I`: with every byte inside memory, the bytes stand
in order from `I` on, `pc` is on by 2, and nothing else in the state differs. -/
theorem exec_by_storing_inside {i : Instr} {s : State} {bytes : List Byte}
    (ends : exec i s = .next (s.storeAtI i bytes)) (canonical : s.mem.wf = true)
    (inside : s.I.toNat + bytes.length ≤ 4096) :
    ∃ t, exec i s = .next t ∧
      (∀ k (hk : k < bytes.length), t.mem.read (s.I.toNat + k) = bytes[k]) ∧
      t.pc = s.pc + 2 ∧ OnlyChanged [.memory s.base bytes.length] s t := by
  rcases State.storeAtI_cases s i bytes with ⟨_, stored⟩ | ⟨⟨_, outside⟩, _⟩
  · rw [stored] at ends
    exact ⟨_, ends, fun _ hk => Memory.read_writeBytes_inside canonical inside hk, rfl,
      OnlyChanged.of_store s bytes⟩
  · omega

/-- Once for every instruction that ends in a store at `I`: with a byte above 4095 it faults and records
the lowest such address, having stored nothing. -/
theorem exec_by_storing_outside {i : Instr} {s : State} {bytes : List Byte}
    (ends : exec i s = .next (s.storeAtI i bytes)) (nonempty : 0 < bytes.length)
    (outside : 4096 < s.I.toNat + bytes.length) :
    ∃ t, exec i s = .next t ∧
      FaultTaken .memOutOfBounds (some (encode i)) (BitVec.ofNat 16 (max s.I.toNat 4096)) s t := by
  rcases State.storeAtI_cases s i bytes with ⟨inside, _⟩ | ⟨_, raised⟩
  · omega
  · rw [raised] at ends
    exact ⟨_, ends, FaultTaken.of_raise s _ _ _⟩

/-- The lowest address of an access that leaves memory fits the 16 bits of `faddr`. -/
theorem faddr_of_max_toNat (a : Word) :
    (BitVec.ofNat 16 (max a.toNat 4096)).toNat = max a.toNat 4096 := by
  have := a.isLt
  exact Nat.mod_eq_of_lt (by omega)

/-- Settles O39: `LD B` ends in one store at `I` of the three digits of `Vx`, which is done as a whole or
faults with the memory as it was. -/
theorem bcdStoresTheThreeDigits : Obligations.BcdStoresTheThreeDigits := by
  intro x s
  have ends := exec_ldB x s
  refine ⟨fun canonical inside => ?stored, fun outside => ?faulted⟩
  case stored =>
    obtain ⟨t, ends, reads, advanced, frame⟩ := exec_by_storing_inside ends canonical
      (by rw [bcdDigits_length]; omega)
    obtain ⟨hundreds, tens, ones⟩ := bcdDigits_toNat (s.v x)
    have at0 := reads 0 (by simp)
    have at1 := reads 1 (by simp)
    have at2 := reads 2 (by simp)
    rw [Nat.add_zero] at at0
    exact ⟨t, ends, by rw [at0, hundreds], by rw [at1, tens], by rw [at2, ones], advanced, frame⟩
  case faulted =>
    obtain ⟨t, ends, fault⟩ := exec_by_storing_outside ends
      (by rw [bcdDigits_length]; omega) (by rw [bcdDigits_length]; omega)
    have sameMemory : ∀ a, t.mem.read a = s.mem.read a := fun a => fault.rest.memory a (by simp)
    exact ⟨t, ends, fault.halted, fault.cause, by rw [fault.faultAddr, faddr_of_max_toNat],
      sameMemory⟩

end Sys2Proof.Machine
end

section
/-! Timers (49_timers_and_key_wait): what the timer transfers do to the state, and what the tick of the
same cycle makes of it. -/

namespace Sys2Proof.Machine

@[simp] theorem exec_ldVxDT (x : RegIdx) (s : State) :
    exec (.ldVxDT x) s = .next (s.setV x s.DT).advance := rfl

@[simp] theorem exec_ldDTVx (x : RegIdx) (s : State) :
    exec (.ldDTVx x) s = .next { s with DT := s.v x }.advance := rfl

@[simp] theorem exec_ldSTVx (x : RegIdx) (s : State) :
    exec (.ldSTVx x) s = .next { s with ST := s.v x }.advance := rfl

theorem OnlyChanged.of_loadDelay (s : State) (b : Byte) :
    OnlyChanged [.delay] s { s with DT := b }.advance := by
  constructor
  case delay => exact fun unlisted => absurd (List.mem_singleton_self _) unlisted
  all_goals intros; rfl

theorem OnlyChanged.of_loadSound (s : State) (b : Byte) :
    OnlyChanged [.sound] s { s with ST := b }.advance := by
  constructor
  case sound => exact fun unlisted => absurd (List.mem_singleton_self _) unlisted
  all_goals intros; rfl

/-- Once for every instruction whose handler leaves the fault record alone: at the end of its cycle the
registers are as the handler left them, and each timer is one below what the handler left, or 0. -/
theorem State.AtInstr.step_ticks {s t : State} {i : Instr} {parts : List Part} (about : s.AtInstr i)
    (ends : exec i s = .next t) (frame : OnlyChanged parts s t) (noFault : Part.record ∉ parts) :
    ∃ u, step s = .next u ∧ (∀ x, u.v x = t.v x) ∧
      u.DT.toNat = t.DT.toNat - 1 ∧ u.ST.toNat = t.ST.toNat - 1 := by
  have running : t.halted = false := (frame.halted noFault).trans about.running
  have ticked : t.endCycle = t.tick.nextInput := by simp [State.endCycle_eq, running]
  exact ⟨t.tick.nextInput, ticked ▸ about.step_eq ends, fun _ => rfl,
    tickDown_toNat t.DT, tickDown_toNat t.ST⟩

/-- Settles O45: each transfer is one write, of a register or of a timer, that cannot fault; so the tick
follows it in the same cycle, after the register has its byte. -/
theorem timerTransfers : Obligations.TimerTransfers := by
  intro x s
  have read := exec_by_writing_one_register (exec_ldVxDT x s)
  have delayFrame := OnlyChanged.of_loadDelay s (s.v x)
  have soundFrame := OnlyChanged.of_loadSound s (s.v x)
  refine ⟨read, ⟨_, exec_ldDTVx x s, rfl, rfl, delayFrame⟩, ⟨_, exec_ldSTVx x s, rfl, rfl, soundFrame⟩,
    fun about => ?readCycle, fun about => ?delayCycle, fun about => ?soundCycle⟩
  case readCycle =>
    obtain ⟨t, ends, written, _, frame⟩ := read
    obtain ⟨u, stepped, regs, delay, _⟩ := about.step_ticks ends frame (by simp)
    exact ⟨u, stepped, by rw [regs, written], by rw [delay, frame.delay (by simp)]⟩
  case delayCycle =>
    obtain ⟨u, stepped, _, delay, _⟩ := about.step_ticks (exec_ldDTVx x s) delayFrame (by simp)
    exact ⟨u, stepped, delay⟩
  case soundCycle =>
    obtain ⟨u, stepped, _, _, sound⟩ := about.step_ticks (exec_ldSTVx x s) soundFrame (by simp)
    exact ⟨u, stepped, sound⟩

end Sys2Proof.Machine
end

section
/-! Encoding (30_encoding): decode and encode undo each other, the words that select no instruction, and
the opcode map against the two-level dispatch. -/

namespace Sys2Proof

/-- Settles O1: the primary field of the assembled word selects the instruction's family, the secondary
field its arm, and every other field of the word is the operand it was assembled from. -/
theorem decodeOfEncodeIsTheInstruction : Obligations.DecodeOfEncodeIsTheInstruction := by
  intro i
  cases i
  case jp | call | ldI | jpV0 => simp [encode, decodeWord]
  case seImm | sneImm | ldImm | addImm | rnd => simp [encode, decodeWord]
  case seReg | sneReg | drw => simp [encode, decodeWord]
  case cls | ret => simp [encode, decodeWord, decodeFamily0]
  case ldReg | orReg | andReg | xorReg | addReg | subReg | shr | subnReg | shl =>
    simp [encode, decodeWord, decodeFamily8]
  case skp | sknp => simp [encode, decodeWord, decodeFamilyE]
  case ldVxDT | ldVxK | ldDTVx | ldSTVx | addI | ldF | ldB | ldMemVx | ldVxMem =>
    simp [encode, decodeWord, decodeFamilyF]

/-! ## A word is known by its fixed fields and its operands -/

theorem wordOfAddr_of_op {w : Word} {a : Nibble} (op : Word.op w = a) :
    wordOfAddr a (Word.nnn w) = w := op ▸ wordOfAddr_fields w

theorem wordOfByte_of_op {w : Word} {a : Nibble} (op : Word.op w = a) :
    wordOfByte a (Word.x w) (Word.kk w) = w := op ▸ wordOfByte_fields w

theorem wordOfNibbles_of_op {w : Word} {a : Nibble} (op : Word.op w = a) :
    wordOfNibbles a (Word.x w) (Word.y w) (Word.n w) = w := op ▸ wordOfNibbles_fields w

theorem wordOfByte_of_op_kk {w : Word} {a : Nibble} {k : Byte} (op : Word.op w = a)
    (kk : Word.kk w = k) : wordOfByte a (Word.x w) k = w := kk ▸ wordOfByte_of_op op

theorem wordOfNibbles_of_op_n {w : Word} {a d : Nibble} (op : Word.op w = a) (n : Word.n w = d) :
    wordOfNibbles a (Word.x w) (Word.y w) d = w := n ▸ wordOfNibbles_of_op op

/-! ## A decoded word is the encoding of its term -/

theorem encode_of_decodeFamily0 {w : Word} {i : Instr} (op : Word.op w = 0x0#4)
    (h : decodeFamily0 w = .ok i) : encode i = w := by
  unfold decodeFamily0 at h
  split at h
  · next kk => cases h; exact wordOfByte_of_op_kk op kk
  · split at h
    · next kk => cases h; exact wordOfByte_of_op_kk op kk
    · cases h

theorem encode_of_decodeFamily8 {w : Word} {i : Instr} (op : Word.op w = 0x8#4)
    (h : decodeFamily8 w = .ok i) : encode i = w := by
  unfold decodeFamily8 at h
  split at h <;> cases h
  all_goals next n => exact wordOfNibbles_of_op_n op (BitVec.eq_of_toNat_eq n)

theorem encode_of_decodeFamilyE {w : Word} {i : Instr} (op : Word.op w = 0xE#4)
    (h : decodeFamilyE w = .ok i) : encode i = w := by
  unfold decodeFamilyE at h
  split at h
  · next n => cases h; exact wordOfNibbles_of_op_n op n
  · split at h
    · next n => cases h; exact wordOfNibbles_of_op_n op n
    · cases h

theorem encode_of_decodeFamilyF {w : Word} {i : Instr} (op : Word.op w = 0xF#4)
    (h : decodeFamilyF w = .ok i) : encode i = w := by
  unfold decodeFamilyF at h
  split at h <;> cases h
  all_goals next kk => exact wordOfByte_of_op_kk op (BitVec.eq_of_toNat_eq kk)

/-- What is left for the last arm of the primary dispatch. -/
theorem op_eq_F_of_ne {w : Word} (op : ∀ k < 15, (Word.op w).toNat ≠ k) : Word.op w = 0xF#4 := by
  have bound := (Word.op w).isLt
  have ne := op (Word.op w).toNat
  exact BitVec.eq_of_toNat_eq (show _ = 15 by omega)

/-- Settles O2: every arm of the dispatch takes the operands out of the word by its own fields, so that
the fixed fields the dispatch has looked at and those operands are the whole word. -/
theorem encodeOfDecodeIsTheWord : Obligations.EncodeOfDecodeIsTheWord := by
  intro w i h
  unfold decodeWord at h
  split at h
  case h_1 op => exact encode_of_decodeFamily0 (BitVec.eq_of_toNat_eq op) h
  case h_9 op => exact encode_of_decodeFamily8 (BitVec.eq_of_toNat_eq op) h
  case h_15 op => exact encode_of_decodeFamilyE (BitVec.eq_of_toNat_eq op) h
  case h_16 => exact encode_of_decodeFamilyF (op_eq_F_of_ne (by intro k hk; interval_cases k <;> assumption)) h
  -- an address operand
  case h_2 op | h_3 op | h_11 op | h_12 op =>
    cases h; exact wordOfAddr_of_op (BitVec.eq_of_toNat_eq op)
  -- a register and an immediate
  case h_4 op | h_5 op | h_7 op | h_8 op | h_13 op =>
    cases h; exact wordOfByte_of_op (BitVec.eq_of_toNat_eq op)
  -- three nibbles
  case h_6 op | h_10 op | h_14 op =>
    cases h; exact wordOfNibbles_of_op (BitVec.eq_of_toNat_eq op)

/-! ## The words that select no instruction -/

theorem decodeFamily0_error_iff {w : Word} {e : DecodeReject} :
    decodeFamily0 w = .error e ↔ Word.kk w ∉ [0xE0, 0xEE] ∧ e = .undefined0 := by
  unfold decodeFamily0
  split
  · next kk => simp [kk]
  · split
    · next kk => simp [kk]
    · next ne ne' => simp [ne, ne', eq_comm]

theorem decodeFamily8_error_iff {w : Word} {e : DecodeReject} :
    decodeFamily8 w = .error e ↔
      Word.n w ∈ [0x8, 0x9, 0xA, 0xB, 0xC, 0xD, 0xF] ∧ e = .undefined8 := by
  unfold decodeFamily8
  split
  case h_10 =>
    have bound := (Word.n w).isLt
    simp only [imp_false] at *
    have listed : Word.n w ∈ [0x8, 0x9, 0xA, 0xB, 0xC, 0xD, 0xF] := by
      simp only [List.mem_cons, List.not_mem_nil, or_false, ← BitVec.toNat_inj,
        BitVec.ofNat_eq_ofNat, BitVec.toNat_ofNat]
      omega
    simp only [listed, true_and, Except.error.injEq, eq_comm]
  all_goals next n => simp [← BitVec.toNat_inj, n]

theorem decodeFamilyE_error_iff {w : Word} {e : DecodeReject} :
    decodeFamilyE w = .error e ↔ Word.n w ∉ [0x1, 0xE] ∧ e = .undefinedE := by
  unfold decodeFamilyE
  split
  · next n => simp [n]
  · split
    · next n => simp [n]
    · next ne ne' => simp [ne, ne', eq_comm]

theorem decodeFamilyF_error_iff {w : Word} {e : DecodeReject} :
    decodeFamilyF w = .error e ↔
      Word.kk w ∉ [0x07, 0x0A, 0x15, 0x18, 0x1E, 0x29, 0x33, 0x55, 0x65] ∧ e = .undefinedF := by
  unfold decodeFamilyF
  split
  case h_10 =>
    simp only [imp_false] at *
    have unlisted : Word.kk w ∉ [0x07, 0x0A, 0x15, 0x18, 0x1E, 0x29, 0x33, 0x55, 0x65] := by
      simp only [List.mem_cons, List.not_mem_nil, or_false, ← BitVec.toNat_inj,
        BitVec.ofNat_eq_ofNat, BitVec.toNat_ofNat]
      omega
    simp only [unlisted, not_false_eq_true, true_and, Except.error.injEq, eq_comm]
  all_goals next kk => simp [← BitVec.toNat_inj, kk]

/-- Only the four families with a second level turn a word away. -/
theorem decodeWord_error_iff {w : Word} {e : DecodeReject} :
    decodeWord w = .error e ↔
      (Word.op w = 0x0 ∧ decodeFamily0 w = .error e) ∨ (Word.op w = 0x8 ∧ decodeFamily8 w = .error e) ∨
      (Word.op w = 0xE ∧ decodeFamilyE w = .error e) ∨ (Word.op w = 0xF ∧ decodeFamilyF w = .error e) := by
  unfold decodeWord
  split
  case h_16 => simp [op_eq_F_of_ne (w := w) (by intro k hk; interval_cases k <;> assumption)]
  all_goals next op => simp [← BitVec.toNat_inj, op]

/-- Settles O3: each name of a rejection belongs to one family, so for a given name one alternative of the
dispatch is left, and no family rejects a word as truncated. -/
theorem undefinedWordsAreThoseListed : Obligations.UndefinedWordsAreThoseListed := by
  intro w
  refine ⟨?_, ?_, ?_, ?_, ?_⟩
  all_goals
    simp only [ne_eq, decodeWord_error_iff, decodeFamily0_error_iff, decodeFamily8_error_iff,
      decodeFamilyE_error_iff, decodeFamilyF_error_iff, reduceCtorEq, and_false, and_true, false_or,
      or_false, not_false_eq_true]

/-! ## The opcode map -/

/-- The masks of R95 keep the fixed fields of a word: the first nibble, with it the last one, or with it
the low byte. -/
theorem op_of_selected {w : Word} {a : Nibble} (h : w &&& 0xF000 = wordOfAddr a 0) : Word.op w = a := by
  rw [← wordOfAddr_fields w, Laws.addr_fixed_first] at h
  simpa using congrArg Word.op h

theorem op_n_of_selected {w : Word} {a d : Nibble} (h : w &&& 0xF00F = wordOfNibbles a 0 0 d) :
    Word.op w = a ∧ Word.n w = d := by
  rw [← wordOfNibbles_fields w, Laws.nibbles_fixed_ends] at h
  exact ⟨by simpa using congrArg Word.op h, by simpa using congrArg Word.n h⟩

theorem op_kk_of_selected {w : Word} {a : Nibble} {k : Byte} (h : w &&& 0xF0FF = wordOfByte a 0 k) :
    Word.op w = a ∧ Word.kk w = k := by
  rw [← wordOfByte_fields w, Laws.byte_fixed_ends] at h
  exact ⟨by simpa using congrArg Word.op h, by simpa using congrArg Word.kk h⟩

theorem addr_of_selected {w : Word} {a : Nibble} (h : w &&& 0xF000 = wordOfAddr a 0) :
    wordOfAddr a (Word.nnn w) = w := wordOfAddr_of_op (op_of_selected h)

theorem byte_of_selected {w : Word} {a : Nibble} (h : w &&& 0xF000 = wordOfAddr a 0) :
    wordOfByte a (Word.x w) (Word.kk w) = w := wordOfByte_of_op (op_of_selected h)

theorem nibbles_of_selected {w : Word} {a : Nibble} (h : w &&& 0xF000 = wordOfAddr a 0) :
    wordOfNibbles a (Word.x w) (Word.y w) (Word.n w) = w := wordOfNibbles_of_op (op_of_selected h)

theorem nibbles_of_selected_ends {w : Word} {a d : Nibble}
    (h : w &&& 0xF00F = wordOfNibbles a 0 0 d) :
    wordOfNibbles a (Word.x w) (Word.y w) d = w :=
  wordOfNibbles_of_op_n (op_n_of_selected h).1 (op_n_of_selected h).2

theorem byte_of_selected_ends {w : Word} {a : Nibble} {k : Byte}
    (h : w &&& 0xF0FF = wordOfByte a 0 k) : wordOfByte a (Word.x w) k = w :=
  wordOfByte_of_op_kk (op_kk_of_selected h).1 (op_kk_of_selected h).2

/-- A word that a row selects is the encoding of an instruction of that row, whose operands are the bits the
mask leaves out. -/
theorem selected_is_encoded {w : Word} {r : OpcodeRow} (mem : r ∈ opcodeMap)
    (h : w &&& r.mask = r.pattern) : ∃ i : Instr, encode i = w ∧ i.row = r := by
  simp only [opcodeMap, List.cons_append, List.nil_append, List.mem_cons, List.not_mem_nil, or_false] at mem
  rcases mem with rfl | rfl | rfl | rfl | rfl | rfl | rfl | rfl | rfl | rfl | rfl | rfl | rfl | rfl | rfl |
    rfl | rfl | rfl | rfl | rfl | rfl | rfl | rfl | rfl | rfl | rfl | rfl | rfl | rfl | rfl | rfl | rfl |
    rfl | rfl
  · exact ⟨.cls (Word.x w), byte_of_selected_ends h, rfl⟩
  · exact ⟨.ret (Word.x w), byte_of_selected_ends h, rfl⟩
  · exact ⟨.jp (Word.nnn w), addr_of_selected h, rfl⟩
  · exact ⟨.call (Word.nnn w), addr_of_selected h, rfl⟩
  · exact ⟨.seImm (Word.x w) (Word.kk w), byte_of_selected h, rfl⟩
  · exact ⟨.sneImm (Word.x w) (Word.kk w), byte_of_selected h, rfl⟩
  · exact ⟨.seReg (Word.x w) (Word.y w) (Word.n w), nibbles_of_selected h, rfl⟩
  · exact ⟨.ldImm (Word.x w) (Word.kk w), byte_of_selected h, rfl⟩
  · exact ⟨.addImm (Word.x w) (Word.kk w), byte_of_selected h, rfl⟩
  · exact ⟨.ldReg (Word.x w) (Word.y w), nibbles_of_selected_ends h, rfl⟩
  · exact ⟨.orReg (Word.x w) (Word.y w), nibbles_of_selected_ends h, rfl⟩
  · exact ⟨.andReg (Word.x w) (Word.y w), nibbles_of_selected_ends h, rfl⟩
  · exact ⟨.xorReg (Word.x w) (Word.y w), nibbles_of_selected_ends h, rfl⟩
  · exact ⟨.addReg (Word.x w) (Word.y w), nibbles_of_selected_ends h, rfl⟩
  · exact ⟨.subReg (Word.x w) (Word.y w), nibbles_of_selected_ends h, rfl⟩
  · exact ⟨.shr (Word.x w) (Word.y w), nibbles_of_selected_ends h, rfl⟩
  · exact ⟨.subnReg (Word.x w) (Word.y w), nibbles_of_selected_ends h, rfl⟩
  · exact ⟨.shl (Word.x w) (Word.y w), nibbles_of_selected_ends h, rfl⟩
  · exact ⟨.sneReg (Word.x w) (Word.y w) (Word.n w), nibbles_of_selected h, rfl⟩
  · exact ⟨.ldI (Word.nnn w), addr_of_selected h, rfl⟩
  · exact ⟨.jpV0 (Word.nnn w), addr_of_selected h, rfl⟩
  · exact ⟨.rnd (Word.x w) (Word.kk w), byte_of_selected h, rfl⟩
  · exact ⟨.drw (Word.x w) (Word.y w) (Word.n w), nibbles_of_selected h, rfl⟩
  · exact ⟨.skp (Word.x w) (Word.y w), nibbles_of_selected_ends h, rfl⟩
  · exact ⟨.sknp (Word.x w) (Word.y w), nibbles_of_selected_ends h, rfl⟩
  · exact ⟨.ldVxDT (Word.x w), byte_of_selected_ends h, rfl⟩
  · exact ⟨.ldVxK (Word.x w), byte_of_selected_ends h, rfl⟩
  · exact ⟨.ldDTVx (Word.x w), byte_of_selected_ends h, rfl⟩
  · exact ⟨.ldSTVx (Word.x w), byte_of_selected_ends h, rfl⟩
  · exact ⟨.addI (Word.x w), byte_of_selected_ends h, rfl⟩
  · exact ⟨.ldF (Word.x w), byte_of_selected_ends h, rfl⟩
  · exact ⟨.ldB (Word.x w), byte_of_selected_ends h, rfl⟩
  · exact ⟨.ldMemVx (Word.x w), byte_of_selected_ends h, rfl⟩
  · exact ⟨.ldVxMem (Word.x w), byte_of_selected_ends h, rfl⟩

/-- Every instruction's own row selects its word. -/
theorem encoded_is_selected (i : Instr) : encode i &&& i.row.mask = i.row.pattern := by
  refine beq_iff_eq.mp (show i.row.selects (encode i) = true from ?_)
  cases i
  case cls => exact Laws.OpcodeRow.cls _
  case ret => exact Laws.OpcodeRow.ret _
  case jp => exact Laws.OpcodeRow.jp _
  case call => exact Laws.OpcodeRow.call _
  case seImm => exact Laws.OpcodeRow.seImm _ _
  case sneImm => exact Laws.OpcodeRow.sneImm _ _
  case seReg => exact Laws.OpcodeRow.seReg _ _ _
  case ldImm => exact Laws.OpcodeRow.ldImm _ _
  case addImm => exact Laws.OpcodeRow.addImm _ _
  case ldReg => exact Laws.OpcodeRow.ldReg _ _
  case orReg => exact Laws.OpcodeRow.orReg _ _
  case andReg => exact Laws.OpcodeRow.andReg _ _
  case xorReg => exact Laws.OpcodeRow.xorReg _ _
  case addReg => exact Laws.OpcodeRow.addReg _ _
  case subReg => exact Laws.OpcodeRow.subReg _ _
  case shr => exact Laws.OpcodeRow.shr _ _
  case subnReg => exact Laws.OpcodeRow.subnReg _ _
  case shl => exact Laws.OpcodeRow.shl _ _
  case sneReg => exact Laws.OpcodeRow.sneReg _ _ _
  case ldI => exact Laws.OpcodeRow.ldI _
  case jpV0 => exact Laws.OpcodeRow.jpV0 _
  case rnd => exact Laws.OpcodeRow.rnd _ _
  case drw => exact Laws.OpcodeRow.drw _ _ _
  case skp => exact Laws.OpcodeRow.skp _ _
  case sknp => exact Laws.OpcodeRow.sknp _ _
  case ldVxDT => exact Laws.OpcodeRow.ldVxDT _
  case ldVxK => exact Laws.OpcodeRow.ldVxK _
  case ldDTVx => exact Laws.OpcodeRow.ldDTVx _
  case ldSTVx => exact Laws.OpcodeRow.ldSTVx _
  case addI => exact Laws.OpcodeRow.addI _
  case ldF => exact Laws.OpcodeRow.ldF _
  case ldB => exact Laws.OpcodeRow.ldB _
  case ldMemVx => exact Laws.OpcodeRow.ldMemVx _
  case ldVxMem => exact Laws.OpcodeRow.ldVxMem _

/-- Settles O4: a row selects exactly the encodings of its own instructions, and decoding undoes encoding in
both directions. -/
theorem dispatchAgreesWithTheOpcodeMap : Obligations.DispatchAgreesWithTheOpcodeMap := by
  intro w r mem
  refine ⟨fun selected => ?decoded, ?selected⟩
  case decoded =>
    obtain ⟨i, rfl, row⟩ := selected_is_encoded mem selected
    exact ⟨i, decodeOfEncodeIsTheInstruction i, row⟩
  case selected =>
    rintro ⟨i, decoded, rfl⟩
    rw [← encodeOfDecodeIsTheWord w i decoded]
    exact encoded_is_selected i

/-- Settles O5: a word that two rows select would decode to one instruction of both, and an instruction has
one row; the 34 rows are distinct. -/
theorem noWordSelectsTwoRows : Obligations.NoWordSelectsTwoRows := by
  have distinct : opcodeMap.Nodup := by decide
  refine List.Pairwise.imp_of_mem (fun {a b} memA memB ne w selected => ne ?_) distinct
  obtain ⟨i, decodedI, rowI⟩ := (dispatchAgreesWithTheOpcodeMap w a memA).mp selected.1
  obtain ⟨j, decodedJ, rowJ⟩ := (dispatchAgreesWithTheOpcodeMap w b memB).mp selected.2
  have same : i = j := Except.ok.inj (decodedI.symm.trans decodedJ)
  rw [← rowI, ← rowJ, same]

/-- Settles O6: the decoder is computable, and each of the fourteen words is one evaluation of it. -/
theorem sampleWordsDecodeAsEncoded : Obligations.SampleWordsDecodeAsEncoded := by
  unfold Obligations.SampleWordsDecodeAsEncoded
  decide

end Sys2Proof
end

section
/-! Faults of instructions (60_exceptions R206 to R210): the cause and the address an instruction that is
turned away records, and that it does nothing else. -/

namespace Sys2Proof

open Sys2Proof.Machine

/-- The cause of the one fault an instruction can raise. -/
def Instr.faultCause : Instr → FaultCause
  | .call _ => .stackOverflow
  | .ret _ => .stackUnderflow
  | .skp _ _ | .sknp _ _ => .keyIndexFault
  | .drw _ _ _ | .ldB _ | .ldMemVx _ | .ldVxMem _ => .memOutOfBounds
  | _ => .none

/-- The address that fault records: the key number, the lowest address above memory, or 0. -/
def Instr.faultAddr (i : Instr) (s : State) : Word :=
  match i with
  | .skp x _ | .sknp x _ => BitVec.ofNat 16 (s.v x).toNat
  | .drw _ _ _ | .ldB _ | .ldMemVx _ | .ldVxMem _ => BitVec.ofNat 16 (max s.I.toNat 4096)
  | _ => 0

end Sys2Proof

namespace Sys2Proof.Machine

/-- A store at `I` with a byte above 4095 is fault entry. -/
theorem State.storeAtI_outside {s : State} (i : Instr) {bytes : List Byte} (nonempty : 0 < bytes.length)
    (outside : 4096 < s.I.toNat + bytes.length) :
    s.storeAtI i bytes = s.raiseOutOfBounds (some (encode i)) (max s.I.toNat 4096) := by
  rcases s.storeAtI_cases i bytes with ⟨inside, _⟩ | ⟨_, raised⟩
  · omega
  · exact raised

/-- A load at `I` with a byte above 4095 is fault entry. -/
theorem State.loadAtI_outside {s : State} (i : Instr) {n : Nat} (use : List Byte → State)
    (nonempty : 0 < n) (outside : 4096 < s.I.toNat + n) :
    s.loadAtI i n use = s.raiseOutOfBounds (some (encode i)) (max s.I.toNat 4096) := by
  rcases s.loadAtI_cases i n use with ⟨inside, _⟩ | ⟨_, raised⟩
  · omega
  · exact raised

/-- A skip on a key number above 15 is fault entry. -/
theorem State.skipOnKey_noKey {s : State} (i : Instr) {x : RegIdx} (down : Bool) (noKey : 15 < (s.v x).toNat) :
    s.skipOnKey i x down =
      s.raise .keyIndexFault (some (encode i)) (BitVec.ofNat 16 (s.v x).toNat) := by
  rcases s.skipOnKey_cases i x down with ⟨key, _⟩ | ⟨_, raised⟩
  · omega
  · rw [raised, zeroExtend16_eq]

theorem State.firstRegs_length (s : State) (x : RegIdx) : (s.firstRegs x).length = x.toNat + 1 := by
  have := x.isLt
  simp only [State.firstRegs, List.length_take, Vector.length_toList]
  omega

/-- An instruction that meets its fault condition does fault entry with its own word, and no more. -/
theorem exec_of_faultsIn {i : Instr} {s : State} (faults : i.faultsIn s) :
    exec i s = .next (s.raise i.faultCause (some (encode i)) (i.faultAddr s)) := by
  cases i
  case call nnn =>
    have full : s.sp.val = 16 := faults
    rcases s.push_cases (s.pc + 2#16) with ⟨room, _⟩ | ⟨_, refused⟩
    · omega
    · simp only [exec, execCall, refused]; rfl
  case ret ign =>
    have empty : s.sp.val = 0 := faults
    rcases s.pop_cases with ⟨held, _⟩ | ⟨_, refused⟩
    · omega
    · simp only [exec, execRet, refused]; rfl
  case skp x ign => exact congrArg _ (State.skipOnKey_noKey _ true faults)
  case sknp x ign => exact congrArg _ (State.skipOnKey_noKey _ false faults)
  case drw x y n =>
    obtain ⟨nonempty, outside⟩ := faults
    exact congrArg _ (State.loadAtI_outside _ _ nonempty (by omega))
  case ldVxMem x =>
    have outside : 4095 < s.I.toNat + x.toNat := faults
    exact congrArg _ (State.loadAtI_outside _ _ (by omega) (by omega))
  case ldMemVx x =>
    have outside : 4095 < s.I.toNat + x.toNat := faults
    have length := s.firstRegs_length x
    exact congrArg _ (State.storeAtI_outside _ (by omega) (by omega))
  case ldB x =>
    have outside : 4095 < s.I.toNat + 2 := faults
    exact congrArg _ (State.storeAtI_outside _ (by simp) (by rw [bcdDigits_length]; omega))
  all_goals exact faults.elim

/-- Every fault of an instruction is a precise fault with the instruction's word in the record. -/
theorem exec_takes_fault {i : Instr} {s : State} (faults : i.faultsIn s) :
    ∃ t, exec i s = .next t ∧ FaultTaken i.faultCause (some (encode i)) (i.faultAddr s) s t :=
  ⟨_, exec_of_faultsIn faults, FaultTaken.of_raise s _ _ _⟩

/-- Settles O20: `CALL` at capacity and `RET` on an empty stack are two faults of instructions. -/
theorem stackFaultsAreTaken : Obligations.StackFaultsAreTaken :=
  ⟨fun nnn _ full => exec_takes_fault (i := .call nnn) full,
    fun ign _ empty => exec_takes_fault (i := .ret ign) empty⟩

/-- Settles O26: a key number above 15 is the fault condition of both key skips. -/
theorem keyIndexAboveFifteenFaults : Obligations.KeyIndexAboveFifteenFaults := by
  intro x ign s noKey
  exact ⟨exec_takes_fault (i := .skp x ign) noKey, exec_takes_fault (i := .sknp x ign) noKey⟩

/-- Settles O43: the four memory instructions record the same address, and the statement says nothing of
the others. -/
theorem accessOutsideMemoryFaults : Obligations.AccessOutsideMemoryFaults := by
  intro i s faults
  cases i
  case drw | ldB | ldMemVx | ldVxMem => exact exec_takes_fault faults
  all_goals trivial

end Sys2Proof.Machine
end

section
/-! Control flow (41_control_flow): the call stack and the two jumps that read the state. -/

namespace Sys2Proof.Machine

/-- R127 below capacity: one push of the address after the call, and the jump. -/
theorem exec_call_of_room (nnn : Addr12) {s : State} (room : s.sp.val < 16) :
    exec (.call nnn) s =
      .next (State.jump
        { s with stack := s.stack.set s.sp.val (s.pc + 2#16), sp := ⟨s.sp.val + 1, by omega⟩ }
        (addrOperand nnn)) := by
  rcases s.push_cases (s.pc + 2#16) with ⟨_, pushed⟩ | ⟨full, _⟩
  · simp only [exec, execCall, pushed]
  · omega

/-- R128 with an address held: one pop, and the jump to what it gives. -/
theorem exec_ret_of_held (ign : Nibble) {s : State} (held : 0 < s.sp.val) :
    exec (.ret ign) s =
      .next (State.jump { s with sp := ⟨s.sp.val - 1, by omega⟩ } s.stack[s.sp.val - 1]) := by
  rcases s.pop_cases with ⟨_, popped⟩ | ⟨empty, _⟩
  · simp only [exec, execRet, popped]
  · omega

theorem OnlyChanged.of_stack (s : State) (slots : Vector Word 16) (depth : Fin 17) (a : Word) :
    OnlyChanged [.stack] s (State.jump { s with stack := slots, sp := depth } a) := by
  constructor
  case stackPointer | stackSlots => exact fun unlisted => absurd (List.mem_singleton_self _) unlisted
  all_goals intros; rfl

/-- Settles O18: below capacity `CALL` is one push and one jump; at capacity it is a fault of an
instruction. -/
theorem callPushesTheReturnAddress : Obligations.CallPushesTheReturnAddress := by
  intro nnn s
  refine ⟨fun room => ?pushed, fun full => ?faulted⟩
  case pushed =>
    refine ⟨_, exec_call_of_room nnn room, addrOperand_toNat nnn, rfl, ?top, fun k other => ?below,
      OnlyChanged.of_stack s _ _ _⟩
    case top => simp
    case below => simp [other.symm]
  case faulted =>
    obtain ⟨t, ends, fault⟩ := exec_takes_fault (i := .call nnn) full
    exact ⟨t, ends, fault.halted, fault.cause, fault.pc, fault.rest.stackPointer (by simp),
      fault.rest.stackSlots (by simp)⟩

/-- Settles O19: with an address held `RET` is one pop and one jump; with none it is a fault of an
instruction. -/
theorem returnPopsTheReturnAddress : Obligations.ReturnPopsTheReturnAddress := by
  intro ign s
  refine ⟨fun held => ?popped, fun empty => ?faulted⟩
  case popped =>
    exact ⟨_, exec_ret_of_held ign held, rfl, rfl, rfl, OnlyChanged.of_stack s s.stack _ _⟩
  case faulted =>
    obtain ⟨t, ends, fault⟩ := exec_takes_fault (i := .ret ign) empty
    exact ⟨t, ends, fault.halted, fault.cause, fault.pc, fault.rest.stackPointer (by simp)⟩

/-- Settles O21: the slot the return pops is the one the call has filled. -/
theorem callThenReturnComesBack : Obligations.CallThenReturnComesBack := by
  intro nnn ign s t u room called sameDepth sameSlots
  obtain ⟨t', called', _, depth, slot, _, _⟩ := (callPushesTheReturnAddress nnn s).1 room
  obtain rfl : t' = t := Host.Outcome.next.inj (called'.symm.trans called)
  have depthU : u.sp.val = s.sp.val + 1 := by rw [sameDepth, depth]
  obtain ⟨v, returned, depthV, target, _, frame⟩ :=
    (returnPopsTheReturnAddress ign u).1 (by omega)
  refine ⟨v, returned, ?target, Fin.ext (by omega), frame⟩
  simp only [target, depthU, sameSlots, Nat.add_sub_cancel, slot]

@[simp] theorem exec_jpV0 (nnn : Addr12) (s : State) :
    exec (.jpV0 nnn) s = .next (s.jump (jumpV0Target nnn (s.v 0#4))) := rfl

/-- Settles O22: one jump, to the target whose low byte alone `V[0]` is added into. -/
theorem jumpV0StaysInThePage : Obligations.JumpV0StaysInThePage := by
  intro nnn s
  exact ⟨_, exec_jpV0 nnn s, jumpV0Target_toNat nnn (s.v 0#4), OnlyChanged.of_jump s _⟩

end Sys2Proof.Machine
end

section
/-! Key skips (42_conditional_skip section 3) on a key that exists. -/

namespace Sys2Proof.Machine

/-- On a key that exists, a key skip is a skip on the state of that key. -/
theorem State.skipOnKey_of_key {s : State} (i : Instr) {x : RegIdx} (down : Bool)
    (key : (s.v x).toNat < 16) :
    s.skipOnKey i x down = s.skipIf (s.input.keys[(s.v x).toNat] == down) := by
  rcases s.skipOnKey_cases i x down with ⟨_, skipped⟩ | ⟨noKey, _⟩
  · exact skipped
  · omega

theorem exec_skp_of_key (x : RegIdx) (ign : Nibble) {s : State} (key : (s.v x).toNat < 16) :
    exec (.skp x ign) s = .next (s.skipIf (s.input.keys[(s.v x).toNat] == true)) :=
  congrArg _ (State.skipOnKey_of_key _ true key)

theorem exec_sknp_of_key (x : RegIdx) (ign : Nibble) {s : State} (key : (s.v x).toNat < 16) :
    exec (.sknp x ign) s = .next (s.skipIf (s.input.keys[(s.v x).toNat] == false)) :=
  congrArg _ (State.skipOnKey_of_key _ false key)

/-- Settles O25: the two skips differ in the state of the key they compare with. -/
theorem keySkipsFollowTheKey : Obligations.KeySkipsFollowTheKey := by
  intro x ign s key
  refine ⟨?skp, ?sknp⟩
  case skp =>
    exact exec_by_four_or_two (exec_skp_of_key x ign key) (fun down => by simp [down])
      (fun up => by simp [up])
  case sknp =>
    exact exec_by_four_or_two (exec_sknp_of_key x ign key) (fun up => by simp [up])
      (fun down => by simp [down])

end Sys2Proof.Machine
end

section
/-! Register-to-register instructions (44_alu): the logical operations, and those that set the flag. -/

namespace Sys2Proof.Machine

@[simp] theorem exec_orReg (x y : RegIdx) (s : State) :
    exec (.orReg x y) s = .next (s.setV x (s.v x ||| s.v y)).advance := rfl

@[simp] theorem exec_andReg (x y : RegIdx) (s : State) :
    exec (.andReg x y) s = .next (s.setV x (s.v x &&& s.v y)).advance := rfl

@[simp] theorem exec_xorReg (x y : RegIdx) (s : State) :
    exec (.xorReg x y) s = .next (s.setV x (s.v x ^^^ s.v y)).advance := rfl

@[simp] theorem exec_addReg (x y : RegIdx) (s : State) :
    exec (.addReg x y) s =
      .next (s.setResultAndFlag x (s.v x + s.v y) (carryOut (s.v x) (s.v y))).advance := rfl

@[simp] theorem exec_subReg (x y : RegIdx) (s : State) :
    exec (.subReg x y) s =
      .next (s.setResultAndFlag x (s.v x - s.v y) (noBorrow (s.v x) (s.v y))).advance := rfl

@[simp] theorem exec_shr (x : RegIdx) (ign : Nibble) (s : State) :
    exec (.shr x ign) s =
      .next (s.setResultAndFlag x (s.v x >>> 1) (shiftedOutRight (s.v x))).advance := rfl

@[simp] theorem exec_subnReg (x y : RegIdx) (s : State) :
    exec (.subnReg x y) s =
      .next (s.setResultAndFlag x (s.v y - s.v x) (noBorrow (s.v y) (s.v x))).advance := rfl

@[simp] theorem exec_shl (x : RegIdx) (ign : Nibble) (s : State) :
    exec (.shl x ign) s =
      .next (s.setResultAndFlag x (s.v x <<< 1) (shiftedOutLeft (s.v x))).advance := rfl

/-- Settles O29: each logical operation ends in one register write, and acts bit by bit. -/
theorem logicalOperationsWorkBitByBit : Obligations.LogicalOperationsWorkBitByBit := by
  intro x y s
  refine ⟨?or, ?and, ?xor⟩
  case or =>
    obtain ⟨t, ends, written, advanced, frame⟩ := exec_by_writing_one_register (exec_orReg x y s)
    exact ⟨t, ends, fun b => by rw [written, BitVec.getLsbD_or], advanced, frame⟩
  case and =>
    obtain ⟨t, ends, written, advanced, frame⟩ := exec_by_writing_one_register (exec_andReg x y s)
    exact ⟨t, ends, fun b => by rw [written, BitVec.getLsbD_and], advanced, frame⟩
  case xor =>
    obtain ⟨t, ends, written, advanced, frame⟩ := exec_by_writing_one_register (exec_xorReg x y s)
    exact ⟨t, ends, fun b => by rw [written, BitVec.getLsbD_xor], advanced, frame⟩

/-- Once for every instruction that writes a result and then the flag (decision D11): the flag is in `VF`
whatever the destination, the result in `Vx` unless that is `VF`, and nothing else but `pc` differs. -/
theorem exec_by_writing_result_and_flag {i : Instr} {s : State} {x : RegIdx} {b : Byte} {f : Bool}
    (ends : exec i s = .next (s.setResultAndFlag x b f).advance) :
    ∃ t, exec i s = .next t ∧ (x ≠ flagReg → t.v x = b) ∧ t.v flagReg = flagByte f ∧
      t.pc = s.pc + 2 ∧ OnlyChanged [.v x, .v flagReg] s t := by
  refine ⟨_, ends, fun notFlag => ?result, ?flag, rfl, OnlyChanged.of_setResultAndFlag s x b f⟩
  case result => rw [State.v_advance, State.v_setResultAndFlag, if_neg notFlag, if_pos rfl]
  case flag => rw [State.v_advance, State.v_setResultAndFlag_flag]

/-- A flag decided by a condition is 1 where the condition holds and 0 elsewhere. -/
theorem flagByte_decide_toNat (p : Prop) [Decidable p] :
    (flagByte (decide p)).toNat = if p then 1 else 0 := by
  by_cases h : p <;> simp [h]

/-- Settles O30: the byte sum is the sum modulo 256, and the carry is decided on the sum of naturals. -/
theorem addDeliversSumAndCarry : Obligations.AddDeliversSumAndCarry := by
  intro x y s
  obtain ⟨t, ends, result, flag, advanced, frame⟩ := exec_by_writing_result_and_flag (exec_addReg x y s)
  exact ⟨t, ends, fun notFlag => by rw [result notFlag, BitVec.toNat_add],
    by rw [flag, carryOut, flagByte_decide_toNat], advanced, frame⟩

/-- The byte difference is the integer difference modulo 256. -/
theorem toInt_sub_eq_emod (a b : Byte) : ((a - b).toNat : Int) = ((a.toNat : Int) - b.toNat) % 256 := by
  have := a.isLt
  have := b.isLt
  rw [BitVec.toNat_sub]
  omega

/-- Settles O31: `SUB` and `SUBN` are one subtraction with its operands exchanged. -/
theorem subtractDeliversDifferenceAndNoBorrow : Obligations.SubtractDeliversDifferenceAndNoBorrow := by
  intro x y s
  refine ⟨?sub, ?subn⟩
  case sub =>
    obtain ⟨t, ends, result, flag, advanced, frame⟩ := exec_by_writing_result_and_flag (exec_subReg x y s)
    exact ⟨t, ends, fun notFlag => by rw [result notFlag, toInt_sub_eq_emod],
      by rw [flag, noBorrow, flagByte_decide_toNat], advanced, frame⟩
  case subn =>
    obtain ⟨t, ends, result, flag, advanced, frame⟩ := exec_by_writing_result_and_flag (exec_subnReg x y s)
    exact ⟨t, ends, fun notFlag => by rw [result notFlag, toInt_sub_eq_emod],
      by rw [flag, noBorrow, flagByte_decide_toNat], advanced, frame⟩

theorem shiftedOutRight_toNat (b : Byte) : (flagByte (shiftedOutRight b)).toNat = b.toNat % 2 := by
  have bit : shiftedOutRight b = decide (b.toNat % 2 = 1) := Nat.testBit_zero _
  rw [bit, flagByte_decide_toNat]
  split <;> omega

theorem shiftedOutLeft_toNat (b : Byte) : (flagByte (shiftedOutLeft b)).toNat = b.toNat / 128 := by
  have bit : shiftedOutLeft b = decide (b.toNat / 2 ^ 7 % 2 = 1) := Nat.testBit_eq_decide_div_mod_eq
  have := b.isLt
  rw [bit, flagByte_decide_toNat]
  split <;> omega

/-- Settles O32: a shift by one is a halving or a doubling modulo 256, and the bit moved out is the
remainder or the top bit. -/
theorem shiftsMoveOneBitIntoTheFlag : Obligations.ShiftsMoveOneBitIntoTheFlag := by
  intro x ign s
  refine ⟨?shr, ?shl⟩
  case shr =>
    obtain ⟨t, ends, result, flag, advanced, frame⟩ := exec_by_writing_result_and_flag (exec_shr x ign s)
    exact ⟨t, ends, fun notFlag => by rw [result notFlag, BitVec.toNat_ushiftRight, Nat.shiftRight_one],
      by rw [flag, shiftedOutRight_toNat], advanced, frame⟩
  case shl =>
    obtain ⟨t, ends, result, flag, advanced, frame⟩ := exec_by_writing_result_and_flag (exec_shl x ign s)
    exact ⟨t, ends, fun notFlag => by rw [result notFlag, BitVec.toNat_shiftLeft, Nat.shiftLeft_eq],
      by rw [flag, shiftedOutLeft_toNat], advanced, frame⟩

end Sys2Proof.Machine
end

section
/-! Index and addressing (45_index_addressing) and the random instruction (46_random). -/

namespace Sys2Proof.Machine

@[simp] theorem exec_addI (x : RegIdx) (s : State) :
    exec (.addI x) s = .next (s.setI (s.I + zeroExtend16 (s.v x))).advance := rfl

@[simp] theorem exec_ldF (x : RegIdx) (s : State) :
    exec (.ldF x) s = .next (s.setI (glyphAddress (s.v x))).advance := rfl

@[simp] theorem exec_rnd (x : RegIdx) (kk : Byte) (s : State) :
    exec (.rnd x kk) s = .next (s.setV x (s.rnd &&& kk)).advance := rfl

/-- Settles O34: both instructions end in one write of `I`. -/
theorem indexAddAndGlyphAddress : Obligations.IndexAddAndGlyphAddress := by
  intro x s
  refine ⟨?add, ?glyph⟩
  case add =>
    obtain ⟨t, ends, written, advanced, frame⟩ := exec_by_writing_the_index (exec_addI x s)
    exact ⟨t, ends, by rw [written, BitVec.toNat_add, zeroExtend16_toNat], advanced, frame⟩
  case glyph =>
    obtain ⟨t, ends, written, advanced, frame⟩ := exec_by_writing_the_index (exec_ldF x s)
    exact ⟨t, ends, by rw [written, glyphAddress_toNat], advanced, frame⟩

/-- Settles O35: `RND` ends in one register write, of the cycle's byte under the mask. -/
theorem randomByteUnderMask : Obligations.RandomByteUnderMask := by
  intro x kk s
  obtain ⟨t, ends, written, advanced, frame⟩ := exec_by_writing_one_register (exec_rnd x kk s)
  exact ⟨t, ends, fun b => by rw [written, BitVec.getLsbD_and, State.rnd], advanced, frame⟩

end Sys2Proof.Machine
end

section
/-! Display (47_display): the picture and the collision of a sprite, pixel by pixel. -/

namespace Sys2Proof.Machine

/-! ## Clearing the screen -/

@[simp] theorem exec_cls (ign : Nibble) (s : State) :
    exec (.cls ign) s = .next { s with fb := Vector.replicate 32 0 }.advance := rfl

theorem OnlyChanged.of_display (s : State) (fb : Framebuffer) :
    OnlyChanged [.display] s { s with fb := fb }.advance := by
  constructor
  case display => exact fun unlisted => absurd (List.mem_singleton_self _) unlisted
  all_goals intros; rfl

/-- Settles O36: `CLS` replaces the framebuffer by the clear one and advances. -/
theorem clearScreenClearsEveryPixel : Obligations.ClearScreenClearsEveryPixel := by
  intro ign s
  exact ⟨_, exec_cls ign s, Framebuffer.pixel_clear, rfl, OnlyChanged.of_display s _⟩

/-! ## The bits of a sprite -/

@[simp] theorem spriteBit_nil (x0 y px py : Nat) : spriteBit [] x0 y px py = false := by
  simp [spriteBit]

/-- A sprite is its first row on the line `y` and the other rows from the line below it on. -/
theorem spriteBit_cons (row : Byte) (rows : List Byte) (x0 y px py : Nat) :
    spriteBit (row :: rows) x0 y px py =
      if py = y then decide (x0 ≤ px ∧ px < x0 + 8) && row.getLsbD (7 - (px - x0))
      else spriteBit rows x0 (y + 1) px py := by
  unfold spriteBit
  rcases Nat.lt_trichotomy py y with above | rfl | below
  · have first : ¬ y ≤ py := by omega
    have later : ¬ y + 1 ≤ py := by omega
    simp [first, later, show py ≠ y by omega]
  · by_cases column : x0 ≤ px ∧ px < x0 + 8 <;> simp [column]
  · obtain ⟨k, rfl⟩ : ∃ k, py = y + 1 + k := ⟨py - (y + 1), by omega⟩
    have first : y + 1 + k - y = k + 1 := by omega
    have later : y + 1 + k - (y + 1) = k := by omega
    simp [first, later, show y ≤ y + 1 + k by omega, show y + 1 + k ≠ y by omega]

/-- Above its first line a sprite has no bit. -/
theorem spriteBit_above {rows : List Byte} {x0 y px py : Nat} (above : py < y) :
    spriteBit rows x0 y px py = false :=
  if_neg (by omega)

/-! ## One row -/

/-- The first `n` bits of a row, drawn from the left. -/
def Canvas.drawBits (cv : Canvas) (x0 y : Nat) (row : Byte) (n : Nat) : Canvas :=
  (List.range n).foldl (fun acc c => acc.plot (x0 + c) y (row.getLsbD (7 - c))) cv

theorem Canvas.drawRow_eq_drawBits (cv : Canvas) (x0 y : Nat) (row : Byte) :
    cv.drawRow x0 y row = cv.drawBits x0 y row 8 := rfl

@[simp] theorem Canvas.drawBits_zero (cv : Canvas) (x0 y : Nat) (row : Byte) :
    cv.drawBits x0 y row 0 = cv := rfl

theorem Canvas.drawBits_succ (cv : Canvas) (x0 y : Nat) (row : Byte) (n : Nat) :
    cv.drawBits x0 y row (n + 1) =
      (cv.drawBits x0 y row n).plot (x0 + n) y (row.getLsbD (7 - n)) := by
  simp [Canvas.drawBits, List.range_succ]

theorem Canvas.pixel_drawBits (cv : Canvas) (x0 y : Nat) (row : Byte) (n : Nat) {px py : Nat}
    (hx : px ≤ 63) (hy : py ≤ 31) :
    (cv.drawBits x0 y row n).fb.pixel px py =
      (cv.fb.pixel px py ^^
        (decide (py = y ∧ x0 ≤ px ∧ px < x0 + n) && row.getLsbD (7 - (px - x0)))) := by
  induction n with
  | zero => simp [show ¬ (x0 ≤ px ∧ px < x0) by omega]
  | succ n ih =>
    rw [Canvas.drawBits_succ, Canvas.pixel_plot, ih]
    by_cases column : px = x0 + n
    · subst column
      simp [hx, hy, Bool.and_comm]
    · have : (px < x0 + (n + 1)) = (px < x0 + n) := by simp only [eq_iff_iff]; omega
      simp [column, this]

/-- A bit collides with the old picture: the bits drawn before it lie in other columns. -/
theorem Canvas.hit_drawBits (cv : Canvas) (x0 y : Nat) (row : Byte) (n : Nat) :
    (cv.drawBits x0 y row n).hit = true ↔
      cv.hit = true ∨ ∃ c < n, row.getLsbD (7 - c) = true ∧ cv.fb.pixel (x0 + c) y = true := by
  induction n with
  | zero => simp
  | succ n ih =>
    have old : (cv.drawBits x0 y row n).fb.pixel (x0 + n) y = cv.fb.pixel (x0 + n) y := by
      by_cases inside : x0 + n ≤ 63 ∧ y ≤ 31
      · simp [Canvas.pixel_drawBits cv x0 y row n inside.1 inside.2]
      · have outside : 63 < x0 + n ∨ 31 < y := by omega
        rw [Framebuffer.pixel_outside _ outside, Framebuffer.pixel_outside _ outside]
    rw [Canvas.drawBits_succ, Canvas.hit_plot, Bool.or_eq_true, Bool.and_eq_true, ih, old,
      Nat.exists_lt_succ_right, or_assoc]

/-! ## All the rows -/

theorem Framebuffer.inside_of_pixel {fb : Framebuffer} {px py : Nat} (lit : fb.pixel px py = true) :
    px ≤ 63 ∧ py ≤ 31 := by
  by_contra outside
  rw [Framebuffer.pixel_outside fb (by omega)] at lit
  cases lit

/-- The picture after a draw (R174): every pixel of the grid XOR the sprite bit that falls on it. -/
theorem Canvas.pixel_drawRows (cv : Canvas) (x0 y : Nat) (rows : List Byte) {px py : Nat}
    (hx : px ≤ 63) (hy : py ≤ 31) :
    (cv.drawRows x0 y rows).fb.pixel px py = (cv.fb.pixel px py ^^ spriteBit rows x0 y px py) := by
  induction rows generalizing cv y with
  | nil => simp [Canvas.drawRows]
  | cons row rows ih =>
    rw [Canvas.drawRows, ih, Canvas.drawRow_eq_drawBits, Canvas.pixel_drawBits cv x0 y row 8 hx hy,
      spriteBit_cons]
    by_cases line : py = y
    · simp [line, spriteBit_above]
    · simp [line]

/-- A row leaves every other line as it was. -/
theorem Canvas.pixel_drawRow_other (cv : Canvas) (x0 : Nat) {y : Nat} (row : Byte) (px : Nat) {py : Nat}
    (line : py ≠ y) : (cv.drawRow x0 y row).fb.pixel px py = cv.fb.pixel px py := by
  by_cases inside : px ≤ 63 ∧ py ≤ 31
  · simp [Canvas.drawRow_eq_drawBits, Canvas.pixel_drawBits cv x0 y row 8 inside.1 inside.2, line]
  · have outside : 63 < px ∨ 31 < py := by omega
    rw [Framebuffer.pixel_outside _ outside, Framebuffer.pixel_outside _ outside]

/-- The collision of a row: one of its eight bits is 1 and fell on a pixel that was 1. -/
theorem Canvas.hit_drawRow (cv : Canvas) (x0 y : Nat) (row : Byte) (rows : List Byte) :
    (cv.drawRow x0 y row).hit = true ↔
      cv.hit = true ∨ ∃ px, cv.fb.pixel px y = true ∧ spriteBit (row :: rows) x0 y px y = true := by
  rw [Canvas.drawRow_eq_drawBits, Canvas.hit_drawBits]
  simp only [spriteBit_cons, if_true, Bool.and_eq_true, decide_eq_true_eq]
  refine or_congr_right ⟨?_, ?_⟩
  · rintro ⟨c, bound, bit, lit⟩
    exact ⟨x0 + c, lit, by omega, by rwa [Nat.add_sub_cancel_left]⟩
  · rintro ⟨px, lit, column, bit⟩
    exact ⟨px - x0, by omega, bit, by rwa [Nat.add_sub_cancel' column.1]⟩

/-- The collision of a draw (R176): a 1 bit of the sprite fell on a pixel that was 1 in the old picture,
for the rows drawn before it lie on other lines. -/
theorem Canvas.hit_drawRows (cv : Canvas) (x0 y : Nat) (rows : List Byte) :
    (cv.drawRows x0 y rows).hit = true ↔
      cv.hit = true ∨ ∃ px py, cv.fb.pixel px py = true ∧ spriteBit rows x0 y px py = true := by
  induction rows generalizing cv y with
  | nil => simp [Canvas.drawRows]
  | cons row rows ih =>
    rw [Canvas.drawRows, ih, Canvas.hit_drawRow cv x0 y row rows, or_assoc]
    refine or_congr_right ⟨?_, ?_⟩
    · rintro (⟨px, lit, bit⟩ | ⟨px, py, lit, bit⟩)
      · exact ⟨px, y, lit, bit⟩
      · have line : py ≠ y := by
          rintro rfl
          simp [spriteBit_above (Nat.lt_succ_self py)] at bit
        rw [Canvas.pixel_drawRow_other cv x0 row px line] at lit
        exact ⟨px, py, lit, by rwa [spriteBit_cons, if_neg line]⟩
    · rintro ⟨px, py, lit, bit⟩
      by_cases line : py = y
      · exact .inl ⟨px, line ▸ lit, line ▸ bit⟩
      · rw [spriteBit_cons, if_neg line] at bit
        exact .inr ⟨px, py, by rwa [Canvas.pixel_drawRow_other cv x0 row px line], bit⟩

/-! ## The draw -/

/-- The canvas after the draw of a sprite at `(Vx mod 64, Vy mod 32)`. -/
def State.drawn (s : State) (x y : RegIdx) (rows : List Byte) : Canvas :=
  Canvas.drawRows ⟨s.fb, false⟩ ((s.v x).toNat % 64) ((s.v y).toNat % 32) rows

theorem State.draw_fb (s : State) (x y : RegIdx) (rows : List Byte) :
    (s.draw x y rows).fb = (s.drawn x y rows).fb := rfl

theorem State.v_draw_flag (s : State) (x y : RegIdx) (rows : List Byte) :
    (s.draw x y rows).v flagReg = flagByte (s.drawn x y rows).hit := State.v_setFlag_flag _ _

theorem OnlyChanged.of_draw (s : State) (x y : RegIdx) (rows : List Byte) :
    OnlyChanged [.display, .v flagReg] s (s.draw x y rows).advance := by
  constructor
  case display => exact fun unlisted => absurd (List.mem_cons_self) unlisted
  case regs =>
    intro r unlisted
    have other : r ≠ flagReg := by rintro rfl; exact unlisted (by simp)
    exact State.v_setFlag_other _ _ other
  all_goals intros; rfl

/-- R174 with all the bytes in memory: one draw of the bytes at `I`, and the advance. -/
theorem exec_drw_of_inside (x y : RegIdx) {n : Nibble} {s : State}
    (inside : n.toNat = 0 ∨ s.I.toNat + n.toNat ≤ 4096) :
    exec (.drw x y n) s = .next (s.draw x y (s.spriteRows n.toNat)).advance := by
  rcases s.loadAtI_cases (.drw x y n) n.toNat (fun rows => s.draw x y rows) with ⟨_, loaded⟩ | ⟨outside, _⟩
  · exact congrArg _ loaded
  · omega

/-- Settles O37: the pixels and the collision are those of the drawn rows, and the flag is written last. -/
theorem drawXorsTheClippedSprite : Obligations.DrawXorsTheClippedSprite := by
  intro x y n s inside
  have hit := Canvas.hit_drawRows ⟨s.fb, false⟩ ((s.v x).toNat % 64) ((s.v y).toNat % 32)
    (s.spriteRows n.toNat)
  simp only [Bool.false_eq_true, false_or] at hit
  refine ⟨_, exec_drw_of_inside x y inside, fun px py hx hy => ?picture, ?collides, ?misses, rfl,
    OnlyChanged.of_draw s x y _⟩
  case picture => exact Canvas.pixel_drawRows _ _ _ _ hx hy
  case collides =>
    rintro ⟨px, py, _, _, lit, bit⟩
    have collision : (s.drawn x y (s.spriteRows n.toNat)).hit = true := hit.mpr ⟨px, py, lit, bit⟩
    rw [State.v_advance, State.v_draw_flag, collision]; rfl
  case misses =>
    intro clear
    have none : (s.drawn x y (s.spriteRows n.toNat)).hit = false := by
      refine Bool.eq_false_iff.mpr fun collision => ?_
      obtain ⟨px, py, lit, bit⟩ := hit.mp collision
      obtain ⟨hx, hy⟩ := Framebuffer.inside_of_pixel lit
      simp [clear px py hx hy lit] at bit
    rw [State.v_advance, State.v_draw_flag, none]; rfl

/-- Settles O38: the second draw has the same sprite bits, and XOR with the same bit twice is the identity;
from a clear screen the first draw lights exactly the visible 1 bits. -/
theorem drawingTwiceRestoresTheScreen : Obligations.DrawingTwiceRestoresTheScreen := by
  intro x y n s t u inside first screen index regX regY bytes
  have sameRows : u.spriteRows n.toNat = s.spriteRows n.toNat := by
    simp only [State.spriteRows, State.base, index, bytes]
  obtain ⟨t', first', picture, _⟩ := drawXorsTheClippedSprite x y n s inside
  obtain rfl : t' = t := Host.Outcome.next.inj (first'.symm.trans first)
  obtain ⟨v, second, again, collides, _⟩ := drawXorsTheClippedSprite x y n u (by rwa [index])
  rw [sameRows, regX, regY, screen] at again collides
  refine ⟨v, second, fun px py hx hy => ?restored, fun clear visible => ?collision⟩
  case restored => rw [again px py hx hy, picture px py hx hy, Bool.xor_assoc, Bool.xor_self, Bool.xor_false]
  case collision =>
    obtain ⟨px, py, hx, hy, bit⟩ := visible
    have lit : t'.fb.pixel px py = true := by rw [picture px py hx hy, clear px py hx hy, bit]; rfl
    exact collides ⟨px, py, hx, hy, lit, bit⟩

end Sys2Proof.Machine
end

section
/-! Memory transfer (48_memory_transfer section 2): the dump of the first registers and their load. -/

namespace Sys2Proof.Machine

@[simp] theorem exec_ldMemVx (x : RegIdx) (s : State) :
    exec (.ldMemVx x) s = .next (s.storeAtI (.ldMemVx x) (s.firstRegs x)) := rfl

theorem State.firstRegs_getElem (s : State) {x k : RegIdx} (h : k.toNat < (s.firstRegs x).length) :
    (s.firstRegs x)[k.toNat] = s.v k := by
  simp [State.firstRegs, State.v]

/-- Settles O40: the dump is one store at `I`, whose byte number `k` is `V[k]`. -/
theorem dumpStoresTheFirstRegisters : Obligations.DumpStoresTheFirstRegisters := by
  intro x s canonical inside
  have length := s.firstRegs_length x
  obtain ⟨t, ends, reads, advanced, frame⟩ :=
    exec_by_storing_inside (exec_ldMemVx x s) canonical (by omega)
  refine ⟨t, ends, fun k le => ?stored, advanced, length ▸ frame⟩
  rw [reads k.toNat (by omega), State.firstRegs_getElem]

/-- The bytes read for a load of `n` bytes, one by one. -/
theorem State.spriteRows_getD_inside (s : State) {n k : Nat} (d : Byte) (lt : k < n) :
    (s.spriteRows n).getD k d = s.mem.read (s.I.toNat + k) := by
  simp [State.spriteRows, State.base, lt]

theorem State.spriteRows_getD_beyond (s : State) {n k : Nat} (d : Byte) (le : n ≤ k) :
    (s.spriteRows n).getD k d = d := by
  simp [State.spriteRows, le]

/-- R183 with all the bytes in memory: one write of the first registers, and the advance. -/
theorem exec_ldVxMem_of_inside {x : RegIdx} {s : State} (inside : s.I.toNat + x.toNat ≤ 4095) :
    exec (.ldVxMem x) s = .next (s.setFirstRegs (s.spriteRows (x.toNat + 1))).advance := by
  rcases s.loadAtI_cases (.ldVxMem x) (x.toNat + 1) (fun bytes => s.setFirstRegs bytes) with
    ⟨_, loaded⟩ | ⟨outside, _⟩
  · exact congrArg _ loaded
  · omega

theorem mem_writes_ldVxMem {x k : RegIdx} (s : State) (le : k.toNat ≤ x.toNat) :
    Part.v k ∈ (Instr.ldVxMem x).writes s :=
  List.mem_map.mpr ⟨k.toNat, List.mem_range.mpr (by omega), by rw [BitVec.ofNat_toNat, BitVec.setWidth_eq]⟩

/-- A load of the first registers changes those and `pc`. -/
theorem OnlyChanged.of_setFirstRegs (s : State) (x : RegIdx) :
    OnlyChanged ((Instr.ldVxMem x).writes s) s (s.setFirstRegs (s.spriteRows (x.toNat + 1))).advance := by
  constructor
  case regs =>
    intro k unlisted
    have beyond : x.toNat + 1 ≤ k.toNat := by
      by_contra le
      exact unlisted (mem_writes_ldVxMem s (by omega))
    rw [State.v_advance, State.v_setFirstRegs, State.spriteRows_getD_beyond s _ beyond]
  all_goals intros; simp

/-- Settles O41: inside memory the load is one write of the first registers; outside it is a fault of an
instruction. -/
theorem loadFillsTheFirstRegisters : Obligations.LoadFillsTheFirstRegisters := by
  intro x s
  refine ⟨fun inside => ?loaded, fun outside => ?faulted⟩
  case loaded =>
    refine ⟨_, exec_ldVxMem_of_inside inside, fun k le => ?filled, fun k gt => ?kept, rfl,
      OnlyChanged.of_setFirstRegs s x⟩
    case filled =>
      rw [State.v_advance, State.v_setFirstRegs, State.spriteRows_getD_inside s _ (by omega)]
    case kept =>
      rw [State.v_advance, State.v_setFirstRegs, State.spriteRows_getD_beyond s _ (by omega)]
  case faulted =>
    obtain ⟨t, ends, fault⟩ := exec_takes_fault (i := .ldVxMem x) outside
    exact ⟨t, ends, fault.halted, fault.cause,
      by rw [fault.faultAddr]; exact faddr_of_max_toNat s.I, fun k => fault.rest.regs k (by simp)⟩

/-- Settles O42: byte number `k` of the load is byte number `k` of the dump. -/
theorem dumpThenLoadRoundTrips : Obligations.DumpThenLoadRoundTrips := by
  intro x s t u canonical inside dumped index bytes
  obtain ⟨t', dumped', stored, _⟩ := dumpStoresTheFirstRegisters x s canonical inside
  obtain rfl : t' = t := Host.Outcome.next.inj (dumped'.symm.trans dumped)
  obtain ⟨v, loaded, filled, _⟩ := (loadFillsTheFirstRegisters x u).1 (by rwa [index])
  exact ⟨v, loaded, fun k le => by rw [filled k le, index, bytes, stored k le]⟩

/-- Settles O44: the two bytes at the later `pc` are those of two neighbouring registers of the dump. -/
theorem fetchSeesTheStoredBytes : Obligations.FetchSeesTheStoredBytes := by
  intro x k s t u canonical inside dumped lt memory pc
  obtain ⟨t', dumped', stored, _⟩ := dumpStoresTheFirstRegisters x s canonical inside
  obtain rfl : t' = t := Host.Outcome.next.inj (dumped'.symm.trans dumped)
  have bound := x.isLt
  have next : (k + 1).toNat = k.toNat + 1 := by
    rw [BitVec.toNat_add]
    exact Nat.mod_eq_of_lt (show k.toNat + 1 < 16 by omega)
  have high := stored k (by omega)
  have low := stored (k + 1) (by omega)
  rw [next, ← Nat.add_assoc] at low
  rw [State.fetch_inside (by omega), State.wordAtPc, memory, pc, high, low]

end Sys2Proof.Machine
end

section
/-! The key wait (49_timers_and_key_wait section 2). -/

namespace Sys2Proof.Machine

theorem State.leastKeyDown_eq_some_iff (s : State) (k : Fin 16) :
    s.leastKeyDown = some k.val ↔
      s.input.keys[k] = true ∧ ∀ j : Fin 16, j < k → s.input.keys[j] = false := by
  simp only [State.leastKeyDown, List.findIdx?_eq_some_iff_getElem, Vector.length_toList,
    Vector.getElem_toList, id, Fin.getElem_fin, Bool.not_eq_true]
  refine ⟨fun ⟨_, down, up⟩ => ⟨down, fun j lt => up j lt⟩,
    fun ⟨down, up⟩ => ⟨k.isLt, down, fun j lt => up ⟨j, by omega⟩ lt⟩⟩

theorem State.leastKeyDown_eq_none_iff (s : State) :
    s.leastKeyDown = none ↔ ∀ k : Fin 16, s.input.keys[k] = false := by
  simp only [State.leastKeyDown, List.findIdx?_eq_none_iff, id, Vector.mem_toList_iff, Fin.getElem_fin]
  refine ⟨fun up k => up _ (Vector.getElem_mem k.isLt), fun up b mem => ?_⟩
  obtain ⟨k, lt, rfl⟩ := Vector.getElem_of_mem mem
  exact up ⟨k, lt⟩

/-- The least key down is one of the 16. -/
theorem State.leastKeyDown_lt {s : State} {k : Nat} (least : s.leastKeyDown = some k) : k < 16 := by
  obtain ⟨lt, _⟩ := List.findIdx?_eq_some_iff_getElem.mp least
  simpa using lt

theorem exec_ldVxK_of_some (x : RegIdx) {s : State} {k : Nat} (least : s.leastKeyDown = some k) :
    exec (.ldVxK x) s = .next (s.setV x (BitVec.ofNat 8 k)).advance := by
  simp only [exec, execLdVxK, least]

theorem exec_ldVxK_of_none (x : RegIdx) {s : State} (none : s.leastKeyDown = none) :
    exec (.ldVxK x) s = .next s := by
  simp only [exec, execLdVxK, none]

/-- Settles O46: the taken key is the least one, and its number fits a byte. -/
theorem keyWaitTakesTheLeastKey : Obligations.KeyWaitTakesTheLeastKey := by
  intro x s
  refine ⟨fun k down up => ?taken, fun up => ?waits⟩
  case taken =>
    have least := (s.leastKeyDown_eq_some_iff k).mpr ⟨down, up⟩
    obtain ⟨t, ends, written, advanced, frame⟩ := exec_by_writing_one_register (exec_ldVxK_of_some x least)
    have fits : k.val < 256 := by omega
    exact ⟨t, ends, by rw [written, BitVec.toNat_ofNat, Nat.mod_eq_of_lt fits], advanced, frame⟩
  case waits => exact exec_ldVxK_of_none x (s.leastKeyDown_eq_none_iff.mpr up)

end Sys2Proof.Machine
end

section
/-! Every instruction that completes: the `pc` of the table of 10_state R25, the frame, and the canonical
form of memory. -/

namespace Sys2Proof.Machine

/-! ## What the handlers ask for, from the fault condition -/

section
variable {s : State} {x y : RegIdx} {n : Nibble} {nnn : Addr12}

theorem room_of_noFault (noFault : ¬ (Instr.call nnn).faultsIn s) : s.sp.val < 16 := by
  have notFull : s.sp.val ≠ 16 := noFault
  omega

theorem sprite_inside_of_noFault (noFault : ¬ (Instr.drw x y n).faultsIn s) :
    n.toNat = 0 ∨ s.I.toNat + n.toNat ≤ 4096 := by
  have notBeyond : ¬ (0 < n.toNat ∧ 4095 < s.I.toNat + n.toNat - 1) := noFault
  omega

theorem digits_inside_of_noFault (noFault : ¬ (Instr.ldB x).faultsIn s) :
    s.I.toNat + (bcdDigits (s.v x)).length ≤ 4096 := by
  have notBeyond : ¬ 4095 < s.I.toNat + 2 := noFault
  rw [bcdDigits_length]
  omega

theorem dump_inside_of_noFault (noFault : ¬ (Instr.ldMemVx x).faultsIn s) :
    s.I.toNat + (s.firstRegs x).length ≤ 4096 := by
  have notBeyond : ¬ 4095 < s.I.toNat + x.toNat := noFault
  rw [s.firstRegs_length x]
  omega

end

/-! ## Completion -/

/-- The instruction `i` completes from `s` to `t`: `pc` is the table's, only the listed parts differ, memory
stays canonical, and a stack slot is kept or is given the address of the next instruction. -/
structure Completes (i : Instr) (s t : State) : Prop where
  answers : exec i s = .next t
  pc : t.pc = i.nextPc s
  frame : OnlyChanged (i.writes s) s t
  canonical : s.mem.wf = true → t.mem.wf = true
  slots : ∀ k : Fin 16, t.stack[k] = s.stack[k] ∨ t.stack[k] = s.pc + 2

section
variable {i : Instr} {s : State}

theorem Completes.of_jump {a : Word} (ends : exec i s = .next (s.jump a)) (pc : a = i.nextPc s)
    (writes : i.writes s = []) : Completes i s (s.jump a) :=
  ⟨ends, pc, writes ▸ OnlyChanged.of_jump s a, id, fun _ => .inl rfl⟩

theorem Completes.of_setV {x : RegIdx} {b : Byte} (ends : exec i s = .next (s.setV x b).advance)
    (pc : s.pc + 2 = i.nextPc s) (writes : i.writes s = [.v x]) : Completes i s (s.setV x b).advance :=
  ⟨ends, pc, writes ▸ OnlyChanged.of_setV s x b, id, fun _ => .inl rfl⟩

theorem Completes.of_setResultAndFlag {x : RegIdx} {b : Byte} {f : Bool}
    (ends : exec i s = .next (s.setResultAndFlag x b f).advance) (pc : s.pc + 2 = i.nextPc s)
    (writes : i.writes s = [.v x, .v flagReg]) : Completes i s (s.setResultAndFlag x b f).advance :=
  ⟨ends, pc, writes ▸ OnlyChanged.of_setResultAndFlag s x b f, id, fun _ => .inl rfl⟩

theorem Completes.of_setI {a : Word} (ends : exec i s = .next (s.setI a).advance)
    (pc : s.pc + 2 = i.nextPc s) (writes : i.writes s = [.index]) : Completes i s (s.setI a).advance :=
  ⟨ends, pc, writes ▸ OnlyChanged.of_setI s a, id, fun _ => .inl rfl⟩

/-- A store at `I` with every byte in memory. -/
theorem State.storeAtI_inside (i : Instr) {bytes : List Byte} (inside : s.I.toNat + bytes.length ≤ 4096) :
    s.storeAtI i bytes = State.advance { s with mem := s.mem.writeBytes s.I.toNat bytes } := by
  rcases s.storeAtI_cases i bytes with ⟨_, stored⟩ | ⟨⟨_, outside⟩, _⟩
  · exact stored
  · omega

theorem exec_of_store_inside {bytes : List Byte} (ends : exec i s = .next (s.storeAtI i bytes))
    (inside : s.I.toNat + bytes.length ≤ 4096) :
    exec i s = .next (State.advance { s with mem := s.mem.writeBytes s.I.toNat bytes }) :=
  ends.trans (congrArg _ (State.storeAtI_inside i inside))

theorem Completes.of_store {bytes : List Byte} (ends : exec i s = .next (s.storeAtI i bytes))
    (inside : s.I.toNat + bytes.length ≤ 4096) (pc : s.pc + 2 = i.nextPc s)
    (writes : i.writes s = [.memory s.base bytes.length]) : ∃ t, Completes i s t :=
  ⟨_, exec_of_store_inside ends inside, pc, writes ▸ OnlyChanged.of_store s bytes,
    fun canonical => Memory.wf_writeBytes canonical inside, fun _ => .inl rfl⟩

end

theorem OnlyChanged.refl (parts : List Part) (s : State) : OnlyChanged parts s s := by
  constructor <;> intros <;> rfl

/-- A word is known by its value. -/
theorem eq_ofNat_of_toNat_eq {a : Word} {n : Nat} (h : a.toNat = n) : a = BitVec.ofNat 16 n := by
  rw [← h, BitVec.ofNat_toNat, BitVec.setWidth_eq]

theorem addrOperand_eq_ofNat (nnn : Addr12) : addrOperand nnn = BitVec.ofNat 16 nnn.toNat :=
  eq_ofNat_of_toNat_eq (addrOperand_toNat nnn)

/-- The key of R140, R141 as the table reads it. -/
theorem State.key_eq_getD (s : State) {n : Nat} (key : n < 16) :
    s.input.keys[n] = s.input.keys.toList.getD n false := by
  simp [key]

/-- The return address as the table reads it. -/
theorem nextPc_ret (ign : Nibble) (s : State) :
    (Instr.ret ign).nextPc s = s.stack[s.sp.val - 1]'(by omega) := by
  have slot : s.sp.val - 1 < 16 := by omega
  simp [Instr.nextPc, slot]

/-- An instruction that does not meet its fault condition completes. The cases are the ways a handler ends:
a jump or a skip, one register, a result and its flag, `I`, and those that write another part. -/
theorem exec_completes {i : Instr} {s : State} (noFault : ¬ i.faultsIn s) : ∃ t, Completes i s t := by
  cases i
  case jp nnn => exact ⟨_, .of_jump (exec_jp nnn s) (addrOperand_eq_ofNat nnn) rfl⟩
  case jpV0 nnn =>
    exact ⟨_, .of_jump (exec_jpV0 nnn s) (eq_ofNat_of_toNat_eq (jumpV0Target_toNat nnn _)) rfl⟩
  case seImm x kk => exact ⟨_, .of_jump (exec_seImm x kk s) rfl rfl⟩
  case seReg x y ign => exact ⟨_, .of_jump (exec_seReg x y ign s) rfl rfl⟩
  case sneImm x kk => exact ⟨_, .of_jump (exec_sneImm x kk s) (by simp [Instr.nextPc, bne_eq]) rfl⟩
  case sneReg x y ign => exact ⟨_, .of_jump (exec_sneReg x y ign s) (by simp [Instr.nextPc]) rfl⟩
  case skp x ign =>
    have key : (s.v x).toNat < 16 := not_le.mp noFault
    have table : (if s.input.keys[(s.v x).toNat] == true then s.pc + 4#16 else s.pc + 2#16) =
        (Instr.skp x ign).nextPc s := by
      rw [s.key_eq_getD key]; simp [Instr.nextPc]
    exact ⟨_, .of_jump (exec_skp_of_key x ign key) table rfl⟩
  case sknp x ign =>
    have key : (s.v x).toNat < 16 := not_le.mp noFault
    have table : (if s.input.keys[(s.v x).toNat] == false then s.pc + 4#16 else s.pc + 2#16) =
        (Instr.sknp x ign).nextPc s := by
      rw [s.key_eq_getD key]; simp [Instr.nextPc]
    exact ⟨_, .of_jump (exec_sknp_of_key x ign key) table rfl⟩
  case ldImm | addImm | ldReg | orReg | andReg | xorReg | rnd | ldVxDT => exact ⟨_, .of_setV rfl rfl rfl⟩
  case addReg | subReg | shr | subnReg | shl => exact ⟨_, .of_setResultAndFlag rfl rfl rfl⟩
  case ldI | addI | ldF => exact ⟨_, .of_setI rfl rfl rfl⟩
  case ldVxK x =>
    cases least : s.leastKeyDown with
    | some k =>
      have down := ((s.leastKeyDown_eq_some_iff ⟨k, State.leastKeyDown_lt least⟩).mp least).1
      exact ⟨_, .of_setV (exec_ldVxK_of_some x least) (if_pos ⟨_, down⟩).symm rfl⟩
    | none =>
      have up := s.leastKeyDown_eq_none_iff.mp least
      have waits : s.pc = (Instr.ldVxK x).nextPc s := (if_neg (by simpa using up)).symm
      exact ⟨s, exec_ldVxK_of_none x least, waits, OnlyChanged.refl _ s, id, fun _ => .inl rfl⟩
  case call nnn =>
    have room := room_of_noFault noFault
    refine ⟨_, exec_call_of_room nnn room, addrOperand_eq_ofNat nnn, OnlyChanged.of_stack s _ _ _, id,
      fun k => ?_⟩
    by_cases top : s.sp.val = k.val <;> simp [top]
  case ret ign =>
    have held : 0 < s.sp.val := Nat.pos_of_ne_zero noFault
    exact ⟨_, exec_ret_of_held ign held, (nextPc_ret ign s).symm, OnlyChanged.of_stack s s.stack _ _, id,
      fun _ => .inl rfl⟩
  case cls ign => exact ⟨_, exec_cls ign s, rfl, OnlyChanged.of_display s _, id, fun _ => .inl rfl⟩
  case drw x y n =>
    have inside := sprite_inside_of_noFault noFault
    exact ⟨_, exec_drw_of_inside x y inside, rfl, OnlyChanged.of_draw s x y _, id, fun _ => .inl rfl⟩
  case ldDTVx x => exact ⟨_, exec_ldDTVx x s, rfl, OnlyChanged.of_loadDelay s _, id, fun _ => .inl rfl⟩
  case ldSTVx x => exact ⟨_, exec_ldSTVx x s, rfl, OnlyChanged.of_loadSound s _, id, fun _ => .inl rfl⟩
  case ldB x =>
    exact Completes.of_store (exec_ldB x s) (digits_inside_of_noFault noFault) rfl rfl
  case ldMemVx x =>
    exact Completes.of_store (exec_ldMemVx x s) (dump_inside_of_noFault noFault) rfl
      (by rw [s.firstRegs_length x]; rfl)
  case ldVxMem x =>
    have inside : s.I.toNat + x.toNat ≤ 4095 := not_lt.mp noFault
    refine ⟨_, exec_ldVxMem_of_inside inside, ?pc, OnlyChanged.of_setFirstRegs s x, ?canonical,
      fun k => .inl ?slots⟩
    case pc => rw [State.advance_pc, State.setFirstRegs_pc]; rfl
    case canonical => rw [State.advance_mem, State.setFirstRegs_mem]; exact id
    case slots => rw [State.advance_stack, State.setFirstRegs_stack]

/-- No instruction that completes writes the record. -/
theorem record_not_mem_writes (i : Instr) (s : State) : Part.record ∉ i.writes s := by
  cases i <;> simp [Instr.writes]

/-- Settles O23: the table is the `pc` of every completion, and fault entry leaves `pc` alone. -/
theorem programCounterFollowsTheTable : Obligations.ProgramCounterFollowsTheTable := by
  intro i s
  refine ⟨fun noFault => ?_, fun faults => ?_⟩
  · obtain ⟨t, done⟩ := exec_completes noFault
    exact ⟨t, done.answers, done.pc⟩
  · exact ⟨_, exec_of_faultsIn faults, rfl⟩

/-- Settles O48: the frame of every completion, and that of fault entry. -/
theorem everyInstructionKeepsItsFrame : Obligations.EveryInstructionKeepsItsFrame := by
  intro i s
  by_cases faults : i.faultsIn s
  · obtain ⟨t, ends, fault⟩ := exec_takes_fault faults
    exact ⟨t, ends, fun noFault => absurd faults noFault, fun _ => fault.rest⟩
  · obtain ⟨t, done⟩ := exec_completes faults
    exact ⟨t, done.answers, fun _ => done.frame, fun h => absurd h faults⟩

/-- Settles O15: a completion leaves `halted` as it was, and fault entry sets it. -/
theorem instructionFaultsExactlyWhenTheRulesSay : Obligations.InstructionFaultsExactlyWhenTheRulesSay := by
  intro i s running
  by_cases faults : i.faultsIn s
  · exact ⟨_, exec_of_faultsIn faults, by simp [faults]⟩
  · obtain ⟨t, done⟩ := exec_completes faults
    have stillRuns := (done.frame.halted (record_not_mem_writes i s)).trans running
    exact ⟨t, done.answers, by simp [faults, stillRuns]⟩

/-- Settles O7: no handler but those of `RET`, `SKP` and `SKNP` is given the unexamined bits, and those three
use them in the word of the fault record alone. -/
theorem aliasWordsExecuteAsTheCanonicalWord : Obligations.AliasWordsExecuteAsTheCanonicalWord := by
  intro i s noFault
  have canonical : i.canonicalForm.isCanonical = true := by cases i <;> rfl
  refine ⟨canonical, ?_⟩
  cases i
  case ret ign =>
    have held : 0 < s.sp.val := Nat.pos_of_ne_zero noFault
    exact (exec_ret_of_held ign held).trans (exec_ret_of_held 0x0#4 held).symm
  case skp x ign =>
    have key : (s.v x).toNat < 16 := not_le.mp noFault
    exact (exec_skp_of_key x ign key).trans (exec_skp_of_key x _ key).symm
  case sknp x ign =>
    have key : (s.v x).toNat < 16 := not_le.mp noFault
    exact (exec_sknp_of_key x ign key).trans (exec_sknp_of_key x _ key).symm
  all_goals rfl

/-- Settles O49: fault entry reads no input; and of the handlers that complete, only the four read one, each
through the byte or the keys that are the same in both states. -/
theorem inputsMatterToFourInstructionsOnly : Obligations.InputsMatterToFourInstructionsOnly := by
  intro i s t l c s' same ends
  suffices both : ∃ u, exec i s = .next u ∧ exec i s' = .next { u with inputs := l, cycle := c } by
    obtain ⟨u, ends', carried⟩ := both
    obtain rfl : u = t := Host.Outcome.next.inj (ends'.symm.trans ends)
    exact carried
  by_cases faults : i.faultsIn s
  · have faults' : i.faultsIn s' := faults
    exact ⟨_, exec_of_faultsIn faults, exec_of_faultsIn faults'⟩
  cases i
  case rnd x kk =>
    have sameByte : s'.rnd = s.rnd := same
    exact ⟨_, exec_rnd x kk s, by rw [exec_rnd, sameByte]; rfl⟩
  case skp x ign =>
    have key : (s.v x).toNat < 16 := not_le.mp faults
    have sameKeys : s'.input.keys = s.input.keys := same
    exact ⟨_, exec_skp_of_key x ign key,
      (exec_skp_of_key x ign (s := s') key).trans (by simp only [sameKeys]; rfl)⟩
  case sknp x ign =>
    have key : (s.v x).toNat < 16 := not_le.mp faults
    have sameKeys : s'.input.keys = s.input.keys := same
    exact ⟨_, exec_sknp_of_key x ign key,
      (exec_sknp_of_key x ign (s := s') key).trans (by simp only [sameKeys]; rfl)⟩
  case ldVxK x =>
    have sameKeys : s'.input.keys = s.input.keys := same
    have sameLeast : s'.leastKeyDown = s.leastKeyDown := by rw [State.leastKeyDown, sameKeys]; rfl
    cases least : s.leastKeyDown with
    | some k => exact ⟨_, exec_ldVxK_of_some x least, exec_ldVxK_of_some x (sameLeast.trans least)⟩
    | none => exact ⟨_, exec_ldVxK_of_none x least, exec_ldVxK_of_none x (sameLeast.trans least)⟩
  case call nnn =>
    have room := room_of_noFault faults
    exact ⟨_, exec_call_of_room nnn room, exec_call_of_room nnn (s := s') room⟩
  case ret ign =>
    have held : 0 < s.sp.val := Nat.pos_of_ne_zero faults
    exact ⟨_, exec_ret_of_held ign held, exec_ret_of_held ign (s := s') held⟩
  case drw x y n =>
    have inside := sprite_inside_of_noFault faults
    exact ⟨_, exec_drw_of_inside x y inside, exec_drw_of_inside x y (s := s') inside⟩
  case ldVxMem x =>
    have inside : s.I.toNat + x.toNat ≤ 4095 := not_lt.mp faults
    exact ⟨_, exec_ldVxMem_of_inside inside, exec_ldVxMem_of_inside (s := s') inside⟩
  case ldB x =>
    have fits := digits_inside_of_noFault faults
    exact ⟨_, exec_of_store_inside (exec_ldB x s) fits, exec_of_store_inside (exec_ldB x s') fits⟩
  case ldMemVx x =>
    have fits := dump_inside_of_noFault faults
    exact ⟨_, exec_of_store_inside (exec_ldMemVx x s) fits, exec_of_store_inside (exec_ldMemVx x s') fits⟩
  all_goals exact ⟨_, rfl, rfl⟩

end Sys2Proof.Machine
end

section
/-! One cycle (40_execution_cycle section 1): a running core faults as the rules say, or its instruction
completes and the timers tick. -/

namespace Sys2Proof.Machine

/-! ## The end of a cycle -/

theorem tickDown_eq (t : Byte) : tickDown t = if t = 0 then t else t - 1 := by
  unfold tickDown
  by_cases zero : t = 0#8 <;> simp [zero]

theorem State.endCycle_of_running {t : State} (running : t.halted = false) :
    t.endCycle = t.tick.nextInput := by
  simp [State.endCycle_eq, running]

theorem State.endCycle_of_halted {t : State} (halted : t.halted = true) : t.endCycle = t.nextInput := by
  simp [State.endCycle_eq, halted]

/-- The end of a cycle as R110 says it: the tick, unless the handler faulted, and the move of the input
queue. -/
theorem State.endCycle_eq_update (t : State) :
    t.endCycle =
      { t with
        DT := if t.halted = true ∨ t.DT = 0 then t.DT else t.DT - 1
        ST := if t.halted = true ∨ t.ST = 0 then t.ST else t.ST - 1
        inputs := t.inputs.tail
        cycle := t.cycle + 1 } := by
  cases halted : t.halted with
  | true => simp [State.endCycle_of_halted halted, State.nextInput, halted]
  | false => simp [State.endCycle_of_running halted, State.nextInput, State.tick, tickDown_eq, halted]

/-- Settles O8: the step at an instruction is its handler and the end of the cycle. -/
theorem stepRunsTheDecodedInstruction : Obligations.StepRunsTheDecodedInstruction := by
  intro s i about
  obtain ⟨t, ends⟩ := exec_answers_next i s
  exact ⟨t, ends, (about.step_eq ends).trans (congrArg _ t.endCycle_eq_update)⟩

/-- Settles O9: the halted check comes first. -/
theorem haltedStepChangesNothing : Obligations.HaltedStepChangesNothing := by
  intro s halted
  exact if_pos halted

/-- Settles O10: of the three things a step of a running core can do, the fetch fault is the one left at
such a `pc`. -/
theorem fetchOutsideMemoryHalts : Obligations.FetchOutsideMemoryHalts := by
  intro s running outside
  rcases step_cases running with ⟨_, stepped⟩ | ⟨inside, _⟩ | ⟨i, t, about, _⟩
  · exact ⟨_, stepped, FaultTaken.of_raise s _ _ _⟩
  · omega
  · have := about.inMemory
    omega

/-- Settles O11: with the word in memory and undefined, the decode fault is the one left. -/
theorem undefinedWordHalts : Obligations.UndefinedWordHalts := by
  intro s e running inside undefined
  rcases step_cases running with ⟨outside, _⟩ | ⟨_, _, stepped⟩ | ⟨i, t, about, _⟩
  · omega
  · exact ⟨_, stepped, FaultTaken.of_raise s _ _ _⟩
  · have decodes := about.decodes
    rw [undefined] at decodes
    cases decodes

/-- Settles O12: a halted core stays, and each of the three things a running core can do has a next state. -/
theorem stepAlwaysAnswersANextState : Obligations.StepAlwaysAnswersANextState := by
  intro s
  cases halted : s.halted with
  | true => exact ⟨s, haltedStepChangesNothing s halted⟩
  | false =>
    rcases step_cases halted with ⟨_, stepped⟩ | ⟨_, _, stepped⟩ | ⟨_, _, _, _, stepped⟩ <;>
      exact ⟨_, stepped⟩

/-! ## The faults of a cycle -/

/-- What 10_state R31 asks of a fault that the state `s` takes: a cause, the word of the instruction unless
the fetch failed, and the recorded address and the stack pointer that belong to the cause. -/
structure LegalFault (s : State) (cause : FaultCause) (ir : Option Word) (addr : Word) : Prop where
  caused : cause ≠ .none
  noWord : ir = none → cause = .memOutOfBounds
  outOfBounds : cause = .memOutOfBounds → 4096 ≤ addr.toNat
  keyIndex : cause = .keyIndexFault → 16 ≤ addr.toNat ∧ addr.toNat ≤ 255
  otherCauses : cause ≠ .memOutOfBounds → cause ≠ .keyIndexFault → addr = 0
  overflowAtCapacity : cause = .stackOverflow → s.sp.val = 16
  underflowAtEmpty : cause = .stackUnderflow → s.sp.val = 0

theorem LegalFault.of_outOfBounds (s : State) (ir : Option Word) (a : Word) :
    LegalFault s .memOutOfBounds ir (BitVec.ofNat 16 (max a.toNat 4096)) := by
  constructor
  case outOfBounds => exact fun _ => by rw [faddr_of_max_toNat]; exact Nat.le_max_right _ _
  all_goals simp

theorem LegalFault.of_decodeFault (s : State) (w : Word) : LegalFault s .decodeFault (some w) 0 := by
  constructor <;> simp

theorem LegalFault.of_noKey {s : State} {x : RegIdx} (w : Word) (noKey : 15 < (s.v x).toNat) :
    LegalFault s .keyIndexFault (some w) (BitVec.ofNat 16 (s.v x).toNat) := by
  have bound := (s.v x).isLt
  have value : (BitVec.ofNat 16 (s.v x).toNat).toNat = (s.v x).toNat := Nat.mod_eq_of_lt (by omega)
  constructor
  case keyIndex => exact fun _ => by omega
  all_goals simp

/-- The fault of an instruction that meets its condition is legal. -/
theorem LegalFault.of_faultsIn {i : Instr} {s : State} (faults : i.faultsIn s) :
    LegalFault s i.faultCause (some (encode i)) (i.faultAddr s) := by
  cases i
  case drw | ldB | ldMemVx | ldVxMem => exact LegalFault.of_outOfBounds s _ s.I
  case skp | sknp => exact LegalFault.of_noKey _ faults
  case call =>
    have full : s.sp.val = 16 := faults
    constructor <;> simp [Instr.faultCause, Instr.faultAddr, full]
  case ret =>
    have empty : s.sp.val = 0 := faults
    constructor <;> simp [Instr.faultCause, Instr.faultAddr, empty]
  all_goals exact faults.elim

/-- At an instruction a cycle faults exactly when the instruction does. -/
theorem State.AtInstr.cycleFaults_iff {s : State} {i : Instr} (about : s.AtInstr i) :
    s.cycleFaults ↔ i.faultsIn s := by
  have inside := about.inMemory
  have fetched : ¬ 4095 ≤ s.pc.toNat := by omega
  simp only [State.cycleFaults, about.decodes, fetched, false_or]

/-- Everything a step of a running core can do, by its outcome: a legal fault on one of the listed
conditions, or an instruction that completes and the tick. -/
theorem step_faults_or_completes {s : State} (running : s.halted = false) :
    (s.cycleFaults ∧ ∃ cause ir addr, LegalFault s cause ir addr ∧
      step s = .next (s.raise cause ir addr).nextInput) ∨
    (¬ s.cycleFaults ∧ ∃ i t, s.AtInstr i ∧ Completes i s t ∧ t.halted = false ∧
      step s = .next t.tick.nextInput) := by
  rcases step_cases running with
    ⟨outside, stepped⟩ | ⟨_, ⟨e, undefined⟩, stepped⟩ | ⟨i, t, about, ends, stepped⟩
  · exact .inl ⟨.inl outside, _, _, _, LegalFault.of_outOfBounds s none s.pc, stepped⟩
  · have faults : s.cycleFaults := .inr (by rw [undefined]; trivial)
    exact .inl ⟨faults, _, _, _, LegalFault.of_decodeFault s _, stepped⟩
  · by_cases faults : i.faultsIn s
    · obtain rfl := Host.Outcome.next.inj (ends.symm.trans (exec_of_faultsIn faults))
      exact .inl ⟨about.cycleFaults_iff.mpr faults, _, _, _, LegalFault.of_faultsIn faults,
        stepped.trans (congrArg _ (State.endCycle_of_halted rfl))⟩
    · obtain ⟨t, done⟩ := exec_completes faults
      have stillRuns := (done.frame.halted (record_not_mem_writes i s)).trans running
      exact .inr ⟨mt about.cycleFaults_iff.mp faults, i, t, about, done, stillRuns,
        (about.step_eq done.answers).trans (congrArg _ (State.endCycle_of_running stillRuns))⟩

/-- Settles O13: a step that ends halted was a fault, and fault entry is all it did before the input queue
moved on. -/
theorem faultingCycleLeavesTheStateUntouched : Obligations.FaultingCycleLeavesTheStateUntouched := by
  intro s t running stepped halted
  rcases step_faults_or_completes running with
    ⟨_, cause, ir, addr, legal, faulted⟩ | ⟨_, i, u, _, _, stillRuns, completed⟩
  · obtain rfl := Host.Outcome.next.inj (stepped.symm.trans faulted)
    exact ⟨cause, ir, addr, legal.caused, FaultTaken.of_raise s cause ir addr⟩
  · obtain rfl := Host.Outcome.next.inj (stepped.symm.trans completed)
    rw [State.nextInput_halted, State.tick_halted, stillRuns] at halted
    cases halted

/-- Settles O14: the two outcomes of a step are told apart by the listed conditions and by `halted` alike. -/
theorem cycleFaultsExactlyWhenTheRulesSay : Obligations.CycleFaultsExactlyWhenTheRulesSay := by
  intro s running
  rcases step_faults_or_completes running with
    ⟨faults, cause, ir, addr, _, faulted⟩ | ⟨noFault, i, u, _, _, stillRuns, completed⟩
  · exact ⟨_, faulted, by simp [faults]⟩
  · exact ⟨_, completed, by simp [noFault, stillRuns]⟩

/-! ## The timers -/

/-- What a completion leaves in the delay timer: the loaded byte, or what was there. -/
def delayAfter (i : Instr) (s : State) : Byte :=
  match i with
  | .ldDTVx x => s.v x
  | _ => s.DT

/-- What a completion leaves in the sound timer: the loaded byte, or what was there. -/
def soundAfter (i : Instr) (s : State) : Byte :=
  match i with
  | .ldSTVx x => s.v x
  | _ => s.ST

theorem Completes.delay {i : Instr} {s t : State} (done : Completes i s t) : t.DT = delayAfter i s := by
  cases i
  case ldDTVx x =>
    obtain rfl := Host.Outcome.next.inj (done.answers.symm.trans (exec_ldDTVx x s))
    rfl
  all_goals exact done.frame.delay (by simp [Instr.writes])

theorem Completes.sound {i : Instr} {s t : State} (done : Completes i s t) : t.ST = soundAfter i s := by
  cases i
  case ldSTVx x =>
    obtain rfl := Host.Outcome.next.inj (done.answers.symm.trans (exec_ldSTVx x s))
    rfl
  all_goals exact done.frame.sound (by simp [Instr.writes])

/-- Settles O16: a completion is followed by the tick of what its handler left in the timers. -/
theorem timersFallByOneInACompletedCycle : Obligations.TimersFallByOneInACompletedCycle := by
  intro s i about noFault
  obtain ⟨t, done⟩ := exec_completes noFault
  obtain ⟨u, stepped, _, delay, sound⟩ := about.step_ticks done.answers done.frame (record_not_mem_writes i s)
  refine ⟨u, stepped, ?_, ?_⟩
  · rw [delay, done.delay]; cases i <;> rfl
  · rw [sound, done.sound]; cases i <;> rfl

/-! ## Cycles that leave everything but the timers -/

theorem OnlyChanged.of_tick (s : State) : OnlyChanged [.delay, .sound] s s.tick := by
  constructor
  case delay => exact fun unlisted => absurd (by simp) unlisted
  case sound => exact fun unlisted => absurd (by simp) unlisted
  all_goals intros; rfl

/-- Where the handler changes nothing, the cycle is one tick. -/
theorem State.AtInstr.step_of_idle {s : State} {i : Instr} (about : s.AtInstr i) (idle : exec i s = .next s) :
    step s = .next s.tick.nextInput :=
  (about.step_eq idle).trans (congrArg _ (State.endCycle_of_running about.running))

/-- Settles O47: with no key down the key wait changes nothing, so its cycle is one tick. -/
theorem waitingCycleTicksTheTimers : Obligations.WaitingCycleTicksTheTimers := by
  intro x s about up
  have idle := (keyWaitTakesTheLeastKey x s).2 up
  exact ⟨_, about.step_of_idle idle, rfl, tickDown_toNat s.DT, tickDown_toNat s.ST, OnlyChanged.of_tick s⟩

/-- Settles O55: a jump to the address in `pc` changes nothing, so its cycle is one tick, after which the same
word is at the same `pc`. -/
theorem selfJumpIdles : Obligations.SelfJumpIdles := by
  intro nnn s about self
  have target : addrOperand nnn = s.pc := BitVec.eq_of_toNat_eq (by rw [addrOperand_toNat, self])
  have idle : exec (.jp nnn) s = .next s := by rw [exec_jp, target]; rfl
  exact ⟨_, about.step_of_idle idle, rfl, ⟨about.running, about.inMemory, about.decodes⟩,
    OnlyChanged.of_tick s⟩

end Sys2Proof.Machine
end

section
/-! The invariant (10_state sections 4 and 10): fault entry, completion and the tick keep it. -/

namespace Sys2Proof.Machine

/-- The timers and the inputs are no part of the invariant. -/
theorem State.Inv.tick {s : State} (inv : s.Inv) : s.tick.Inv := { inv with }

theorem State.Inv.nextInput {s : State} (inv : s.Inv) : s.nextInput.Inv := { inv with }

/-- Fault entry with a legal fault keeps the invariant, whatever the record held before. -/
theorem State.Inv.raise {s : State} (inv : s.Inv) {cause : FaultCause} {ir : Option Word} {addr : Word}
    (legal : LegalFault s cause ir addr) : (s.raise cause ir addr).Inv where
  memory := inv.memory
  pc := inv.pc
  stack := inv.stack
  haltedIff := ⟨fun _ => legal.caused, fun _ => rfl⟩
  recordClear none := absurd none legal.caused
  faultPc _ := rfl
  noWord _ noWord := by
    obtain rfl : ir = none := by simpa using noWord
    exact ⟨legal.noWord rfl, rfl⟩
  outOfBounds := legal.outOfBounds
  keyIndex := legal.keyIndex
  otherCauses := legal.otherCauses
  overflowAtCapacity := legal.overflowAtCapacity
  underflowAtEmpty := legal.underflowAtEmpty

/-- A running state that meets the invariant has no recorded cause. -/
theorem State.Inv.cause_of_running {s : State} (inv : s.Inv) (running : s.halted = false) :
    s.fcause = .none := by
  by_contra caused
  rw [inv.haltedIff.mpr caused] at running
  cases running

/-- A word plus a number does not exceed the sum of naturals. -/
theorem toNat_add_le (a b : Word) : (a + b).toNat ≤ a.toNat + b.toNat := by
  rw [BitVec.toNat_add]
  exact Nat.mod_le _ _

/-- From a `pc` that can be fetched at, and with legal return addresses, the table of R25 leaves a `pc` of at
most 4098. -/
theorem nextPc_le {s : State} (i : Instr) (pc : s.pc.toNat ≤ 4094)
    (slots : ∀ k : Fin 16, s.stack[k].toNat ≤ 4096) : (i.nextPc s).toNat ≤ 4098 := by
  have two : (s.pc + 2).toNat ≤ 4096 := (toNat_add_le s.pc 2).trans (by simpa using pc)
  have four : (s.pc + 4).toNat ≤ 4098 := (toNat_add_le s.pc 4).trans (by simpa using pc)
  have skip (c : Bool) : (if c then s.pc + 4 else s.pc + 2).toNat ≤ 4098 := by
    cases c
    · exact two.trans (by omega)
    · exact four
  cases i
  case jp nnn | call nnn | jpV0 nnn =>
    have bound := nnn.isLt
    simp only [Instr.nextPc, BitVec.toNat_ofNat]
    omega
  case ret ign =>
    rw [nextPc_ret]
    exact (slots ⟨s.sp.val - 1, by omega⟩).trans (by omega)
  case seImm | sneImm | seReg | sneReg | skp | sknp => exact skip _
  case ldVxK =>
    simp only [Instr.nextPc]
    split
    · exact two.trans (by omega)
    · omega
  all_goals exact two.trans (by omega)

/-- A completion leaves `halted` and the fault record as they were. -/
theorem Completes.record {i : Instr} {s t : State} (done : Completes i s t) :
    t.halted = s.halted ∧ t.fcause = s.fcause ∧ t.fpc = s.fpc ∧ t.fir = s.fir ∧
      t.firValid = s.firValid ∧ t.faddr = s.faddr :=
  have kept := record_not_mem_writes i s
  ⟨done.frame.halted kept, done.frame.cause kept, done.frame.faultPc kept, done.frame.faultWord kept,
    done.frame.faultWordValid kept, done.frame.faultAddr kept⟩

/-- A completion from a state about to run the instruction keeps the invariant: the record stays clear. -/
theorem State.Inv.completes {i : Instr} {s t : State} (inv : s.Inv) (about : s.AtInstr i)
    (done : Completes i s t) : t.Inv := by
  obtain ⟨halted, cause, fpc, fir, firValid, faddr⟩ := done.record
  have running : t.halted = false := halted.trans about.running
  have noCause : t.fcause = .none := cause.trans (inv.cause_of_running about.running)
  have clear : t.fpc = 0 ∧ t.fir = 0 ∧ t.firValid = false ∧ t.faddr = 0 := by
    rw [fpc, fir, firValid, faddr]
    exact inv.recordClear (inv.cause_of_running about.running)
  constructor
  case memory => exact done.canonical inv.memory
  case pc => exact done.pc ▸ nextPc_le i about.inMemory inv.stack
  case stack =>
    intro k
    rcases done.slots k with kept | pushed
    · exact kept ▸ inv.stack k
    · have next := toNat_add_le s.pc 2
      have fetched := about.inMemory
      rw [pushed]
      exact next.trans (by simpa using fetched)
  case haltedIff => simp [running, noCause]
  case recordClear => exact fun _ => clear
  case otherCauses => exact fun _ _ => clear.2.2.2
  all_goals simp [running, noCause]

/-- Settles O50: a halted state stays as it is; a running one takes a legal fault, or completes an instruction
and ticks; and the input queue is no part of the invariant. -/
theorem stepKeepsTheInvariant : Obligations.StepKeepsTheInvariant := by
  intro s t inv stepped
  cases halted : s.halted with
  | true =>
    obtain rfl := Host.Outcome.next.inj (stepped.symm.trans (haltedStepChangesNothing s halted))
    exact inv
  | false =>
    rcases step_faults_or_completes halted with
      ⟨_, cause, ir, addr, legal, faulted⟩ | ⟨_, i, u, about, done, _, completed⟩
    · obtain rfl := Host.Outcome.next.inj (stepped.symm.trans faulted)
      exact (inv.raise legal).nextInput
    · obtain rfl := Host.Outcome.next.inj (stepped.symm.trans completed)
      exact (inv.completes about done).tick.nextInput

end Sys2Proof.Machine
end

section
/-! `Reset(rom)` (10_state section 12, 70_reset_and_hazards section 1): what it leaves, what it refuses, and
the first step after it. -/

namespace Sys2Proof.Machine

/-- Settles O51: every register, slot and record field of the reset state is one evaluation. -/
theorem resetMeetsTheInvariant : Obligations.ResetMeetsTheInvariant := by
  constructor
  case memory => exact State.reset_mem_wf
  all_goals decide

/-- The reset state with the image at 0x200. -/
def State.resetImage (rom : List Byte) : State :=
  { State.reset with mem := State.reset.mem.writeBytes 0x200 rom }

theorem State.resetWith_of_fits {rom : List Byte} (fits : rom.length ≤ 3584) :
    State.resetWith rom = .next (State.resetImage rom) :=
  if_pos (decide_eq_true fits)

/-- Settles O53: the length check is all that `Reset` decides on. -/
theorem resetRefusesALongRom : Obligations.ResetRefusesALongRom := by
  intro rom long
  have refused : ¬ Rom.fits rom = true := by simp [Rom.fits, long]
  exact if_neg refused

/-- The image is in memory byte by byte. -/
theorem State.read_resetImage_rom {rom : List Byte} (fits : rom.length ≤ 3584) {k : Nat}
    (h : k < rom.length) : (State.resetImage rom).mem.read (0x200 + k) = rom[k] :=
  Memory.read_writeBytes_inside State.reset_mem_wf (by omega) h

/-- Outside the image memory holds the font and zeros. -/
theorem State.read_resetImage_outside (rom : List Byte) {a : Nat}
    (h : a < 0x200 ∨ 0x200 + rom.length ≤ a) : (State.resetImage rom).mem.read a = font.getD a 0 :=
  Memory.read_writeBytes_outside State.reset.mem rom h

theorem font_length : font.length = 80 := rfl

theorem font_getD_beyond {a : Nat} (h : 80 ≤ a) : font.getD a 0 = 0 :=
  List.getD_eq_default font 0 (font_length ▸ h)

/-- From 0x200 on memory is the image followed by zeros. -/
theorem State.read_resetImage {rom : List Byte} (fits : rom.length ≤ 3584) (k : Nat) :
    (State.resetImage rom).mem.read (0x200 + k) = rom.getD k 0 := by
  by_cases h : k < rom.length
  · rw [State.read_resetImage_rom fits h, List.getD_eq_getElem rom 0 h]
  · rw [State.read_resetImage_outside rom (by omega), font_getD_beyond (by omega),
      List.getD_eq_default rom 0 (by omega)]

/-- The invariant holds after `Reset` of any image that fits: only memory differs from the reset state. -/
theorem State.inv_resetImage {rom : List Byte} (fits : rom.length ≤ 3584) : (State.resetImage rom).Inv :=
  have inv : State.reset.Inv := resetMeetsTheInvariant
  { inv with memory := Memory.wf_writeBytes State.reset_mem_wf (by omega) }

/-- Settles O52: the reads of memory are those of a write of the image over the reset memory, every other
field is that of the reset state. -/
theorem resetPlacesTheRomAndTheFont : Obligations.ResetPlacesTheRomAndTheFont := by
  intro rom fits
  refine ⟨State.resetImage rom, State.resetWith_of_fits fits, rfl, fun k h => State.read_resetImage_rom fits h,
    fun a h => ?font, fun a beyond outside => ?zeros, fun x => ?regs, rfl, rfl, fun k => ?slots, rfl, rfl,
    Framebuffer.pixel_clear, rfl, rfl, rfl, rfl, rfl, rfl, State.inv_resetImage fits⟩
  case font =>
    have below := h
    rw [font_length] at below
    rw [State.read_resetImage_outside rom (by omega), List.getD_eq_getElem font 0 h]
  case zeros => rw [State.read_resetImage_outside rom outside, font_getD_beyond beyond]
  case regs => simp [State.resetImage, State.reset, State.v]
  case slots => simp [State.resetImage, State.reset]

/-- Settles O54: the first word is the image's first two bytes, so the first step is one of the two that
StepRunsTheDecodedInstruction and UndefinedWordHalts describe. -/
theorem firstStepRunsTheFirstRomWord : Obligations.FirstStepRunsTheFirstRomWord := by
  intro rom s reset
  have fits : rom.length ≤ 3584 := by
    by_contra long
    rw [resetRefusesALongRom rom (by omega)] at reset
    cases reset
  obtain rfl := Host.Outcome.next.inj (reset.symm.trans (State.resetWith_of_fits fits))
  have word : (State.resetImage rom).wordAtPc = wordOfBytes (rom.getD 0 0) (rom.getD 1 0) :=
    congrArg₂ wordOfBytes (State.read_resetImage fits 0) (State.read_resetImage fits 1)
  have fetched : (State.resetImage rom).pc.toNat ≤ 4094 := show (0x200 : Word).toNat ≤ 4094 by decide
  rw [← word]
  refine ⟨rfl, rfl, fun i decodes => ?runs, fun e undefined => ?faults⟩
  case runs =>
    have about : (State.resetImage rom).AtInstr i := ⟨rfl, fetched, decodes⟩
    exact ⟨about, stepRunsTheDecodedInstruction _ i about⟩
  case faults => exact undefinedWordHalts _ e rfl fetched undefined

end Sys2Proof.Machine
end
